-- ==== Sys2Proof/Config.lean ====
section
/-!
DEFINITION. The construction parameters of an AIMS-ES core (00_scope R7), with their constraints, and the
reference configuration.

The spec leaves W, NREG and MAXPROG OPEN: "the model takes them as arguments". A state carries its parameters
(notes/assumptions/1.md), so every definition and every law here is for all of them. The spec leaves no result of
an instruction undefined, so there is no free value in this file.
-/

namespace Sys2Proof

/-- The construction parameters of 00_scope R7 with the constraints of R7. A value outside the constraints cannot
be built (60_exceptions R206: a model "must refuse such a parameter rather than construct a state"). -/
structure Config where
  /-- Register and immediate width in bits (R7, R8). -/
  W : Nat
  /-- Number of registers (R7; 10_state R22). -/
  NREG : Nat
  /-- Capacity of the instruction memory, in instructions (R7; 20_memory R61). -/
  MAXPROG : Nat
  W_ge : 8 ≤ W
  NREG_pos : 1 ≤ NREG
  NREG_le : NREG ≤ 2 ^ (W - 1) - 1
  MAXPROG_le : MAXPROG ≤ 2 ^ (W - 1) - 1
deriving DecidableEq, Repr

/-- The reference configuration (00_scope R7 and glossary): W = 32, NREG = 6, MAXPROG = 1024. -/
def Config.reference : Config :=
  { W := 32, NREG := 6, MAXPROG := 1024
    W_ge := by decide, NREG_pos := by decide, NREG_le := by decide, MAXPROG_le := by decide }

/-- The width of the iteration counter ITER and of CAP.N (00_scope R7, 92_eei_decisions D13). -/
abbrev CW : Nat := 64

end Sys2Proof
end

