-- ==== Sys2Proof/Word.lean ====
section
/-!
DEFINITION. W-bit words and the notation of 00_scope R9.
-/

namespace Sys2Proof

/-- A W-bit vector (00_scope R9). Its unsigned value u(v) is `BitVec.toNat v`, its signed value s(v) is
`BitVec.toInt v`. -/
abbrev Word (w : Nat) : Type := BitVec w

/-- An instruction word: four lanes of W bits (30_encoding R92). -/
abbrev InstrWord (cfg : Config) : Type := BitVec (4 * cfg.W)

/-- `bv_W(n)`: the W-bit vector whose unsigned value is n mod 2^W, for every integer n (00_scope R9). -/
abbrev bv (w : Nat) (n : Int) : Word w := BitVec.ofInt w n

end Sys2Proof
end

