-- ==== Sys2Proof/Syntax.lean ====
section
/-!
DEFINITION. The instructions: one constructor per row of spec/opcode_table.json.

An instruction is the tuple (opcode, a, b, c) of 30_encoding R80, its operands integers. A register-mode operand is
the register's index, an immediate operand is the signed literal; the operand order a, b, c is the assembler's (R102).
-/

namespace Sys2Proof

/-- The closed set of 16 instructions (30_encoding R81, R94). -/
inductive Instr where
  /-- R151: reg[c] = reg[a] + reg[b]. -/
  | addr (a b c : Int)
  /-- R152: reg[c] = reg[a] + b. -/
  | addi (a b c : Int)
  /-- R153: reg[c] = reg[a] * reg[b]. -/
  | mulr (a b c : Int)
  /-- R154: reg[c] = reg[a] * b. -/
  | muli (a b c : Int)
  /-- R161: reg[c] = reg[a] & reg[b]. -/
  | banr (a b c : Int)
  /-- R162: reg[c] = reg[a] & b. -/
  | bani (a b c : Int)
  /-- R163: reg[c] = reg[a] | reg[b]. -/
  | borr (a b c : Int)
  /-- R164: reg[c] = reg[a] | b. -/
  | bori (a b c : Int)
  /-- R171: reg[c] = reg[a]; b is unused. -/
  | setr (a b c : Int)
  /-- R172: reg[c] = a; b is unused. -/
  | seti (a b c : Int)
  /-- R181: reg[c] = (a > reg[b]) ? 1 : 0. -/
  | gtir (a b c : Int)
  /-- R182: reg[c] = (reg[a] > b) ? 1 : 0. -/
  | gtri (a b c : Int)
  /-- R183: reg[c] = (reg[a] > reg[b]) ? 1 : 0. -/
  | gtrr (a b c : Int)
  /-- R184: reg[c] = (a == reg[b]) ? 1 : 0. -/
  | eqir (a b c : Int)
  /-- R185: reg[c] = (reg[a] == b) ? 1 : 0. -/
  | eqri (a b c : Int)
  /-- R186: reg[c] = (reg[a] == reg[b]) ? 1 : 0. -/
  | eqrr (a b c : Int)
deriving DecidableEq, Repr

end Sys2Proof
end

