-- ==== Sys2Proof/WellFormed.lean ====
section
/-!
DEFINITION. Which instructions are well formed: the operand checks of program text (30_encoding R87, R89).
-/

namespace Sys2Proof

/-- A register index of the configuration: 0 ≤ n < NREG (30_encoding R89, 90_conflicts C3). -/
abbrev isRegister (cfg : Config) (n : Int) : Bool :=
  decide (0 ≤ n ∧ n < cfg.NREG)

/-- A literal of the W-bit signed range (30_encoding R87, 92_eei_decisions D10). -/
abbrev isLiteral (cfg : Config) (n : Int) : Bool :=
  decide (-(2 : Int) ^ (cfg.W - 1) ≤ n ∧ n ≤ (2 : Int) ^ (cfg.W - 1) - 1)

/-- The load-time operand checks (30_encoding R87, R89): every register-mode operand and c a register index, every
other operand, the unused b of setr and seti among them, a W-bit signed literal. -/
def Instr.wellFormed (cfg : Config) : Instr → Bool
  | .addr a b c => isRegister cfg a && isRegister cfg b && isRegister cfg c
  | .addi a b c => isRegister cfg a && isLiteral cfg b && isRegister cfg c
  | .mulr a b c => isRegister cfg a && isRegister cfg b && isRegister cfg c
  | .muli a b c => isRegister cfg a && isLiteral cfg b && isRegister cfg c
  | .banr a b c => isRegister cfg a && isRegister cfg b && isRegister cfg c
  | .bani a b c => isRegister cfg a && isLiteral cfg b && isRegister cfg c
  | .borr a b c => isRegister cfg a && isRegister cfg b && isRegister cfg c
  | .bori a b c => isRegister cfg a && isLiteral cfg b && isRegister cfg c
  | .setr a b c => isRegister cfg a && isLiteral cfg b && isRegister cfg c
  | .seti a b c => isLiteral cfg a && isLiteral cfg b && isRegister cfg c
  | .gtir a b c => isLiteral cfg a && isRegister cfg b && isRegister cfg c
  | .gtri a b c => isRegister cfg a && isLiteral cfg b && isRegister cfg c
  | .gtrr a b c => isRegister cfg a && isRegister cfg b && isRegister cfg c
  | .eqir a b c => isLiteral cfg a && isRegister cfg b && isRegister cfg c
  | .eqri a b c => isRegister cfg a && isLiteral cfg b && isRegister cfg c
  | .eqrr a b c => isRegister cfg a && isRegister cfg b && isRegister cfg c

end Sys2Proof
end

