-- ==== Sys2Proof/Decode.lean ====
section
/-!
DEFINITION. The instruction word: its lanes, the decoder, the encoder, and the byte order of a transfer
(30_encoding R92 to R106; 20_memory R65).
-/

namespace Sys2Proof

/-- Lane k of an instruction word: bits [(k+1)W-1 : kW] (30_encoding R92). -/
def lane (cfg : Config) (k : Nat) (w : InstrWord cfg) : Word cfg.W :=
  w.extractLsb' (k * cfg.W) cfg.W

/-- The opcode lane OPL (30_encoding R92). -/
def opl (cfg : Config) (w : InstrWord cfg) : Word cfg.W := lane cfg 0 w

/-- Lane A, operand a (30_encoding R92). -/
def laneA (cfg : Config) (w : InstrWord cfg) : Word cfg.W := lane cfg 1 w

/-- Lane B, operand b (30_encoding R92). -/
def laneB (cfg : Config) (w : InstrWord cfg) : Word cfg.W := lane cfg 2 w

/-- Lane C, operand c (30_encoding R92). -/
def laneC (cfg : Config) (w : InstrWord cfg) : Word cfg.W := lane cfg 3 w

/-- The reserved bits OPL[W-1:4], as a number (30_encoding R93). -/
def reservedBits (cfg : Config) (w : InstrWord cfg) : Word cfg.W := opl cfg w >>> 4

/-- The opcode number OP = OPL[3:0] (30_encoding R93). -/
def opcodeOf (cfg : Config) (w : InstrWord cfg) : BitVec 4 := (opl cfg w).setWidth 4

/-- Why a word is illegal (30_encoding R99). -/
inductive Illegal where
  /-- OPL[W-1:4] ≠ 0. Fetched, it is the fault ILLEGAL_OPCODE; written to IMEM, BAD_OPCODE_FIELD. Safe: the spec's. -/
  | reservedBits
  /-- A register-mode operand or C is no valid register index. Fetched, it is the fault REG_INDEX_OUT_OF_RANGE;
  written to IMEM, OPERAND_OUT_OF_RANGE. Safe: the spec's. -/
  | regIndex
deriving DecidableEq, Repr

/-- The opcode map: the instruction with opcode number `op` and operands a, b, c (30_encoding R94). All 16 numbers
are assigned (R100); OP has 4 bits, so the last arm is number 15. -/
def instrOfOpcode (op : BitVec 4) (a b c : Int) : Instr :=
  match op.toNat with
  | 0 => .addr a b c
  | 1 => .addi a b c
  | 2 => .mulr a b c
  | 3 => .muli a b c
  | 4 => .banr a b c
  | 5 => .bani a b c
  | 6 => .borr a b c
  | 7 => .bori a b c
  | 8 => .setr a b c
  | 9 => .seti a b c
  | 10 => .gtir a b c
  | 11 => .gtri a b c
  | 12 => .gtrr a b c
  | 13 => .eqir a b c
  | 14 => .eqri a b c
  | _ => .eqrr a b c

/-- Reads the tuple out of a word: the opcode map applied to OP, and each lane as the signed value it stands for
(30_encoding R93, R94, R97). The only words it refuses are those with a reserved bit set; whether the register
operands are valid is the next check (R99, 40_execution_cycle R121). -/
def readWord (cfg : Config) (w : InstrWord cfg) : Except Illegal Instr :=
  if reservedBits cfg w ≠ 0 then .error .reservedBits
  else .ok (instrOfOpcode (opcodeOf cfg w) (laneA cfg w).toInt (laneB cfg w).toInt (laneC cfg w).toInt)

/-- Every register-mode operand, and c, is a valid register index (30_encoding R95, R98). Immediate and unused
operands are never checked. -/
def Instr.registersValid (cfg : Config) : Instr → Bool
  | .addr a b c | .mulr a b c | .banr a b c | .borr a b c | .gtrr a b c | .eqrr a b c =>
    isRegister cfg a && isRegister cfg b && isRegister cfg c
  | .addi a _ c | .muli a _ c | .bani a _ c | .bori a _ c | .gtri a _ c | .eqri a _ c | .setr a _ c =>
    isRegister cfg a && isRegister cfg c
  | .gtir _ b c | .eqir _ b c => isRegister cfg b && isRegister cfg c
  | .seti _ _ c => isRegister cfg c

/-- The decoder: every word is exactly one of a legal instruction or illegal with the first reason of 30_encoding
R99 (R106). -/
def decode (cfg : Config) (w : InstrWord cfg) : Except Illegal Instr :=
  match readWord cfg w with
  | .error e => .error e
  | .ok i => if i.registersValid cfg then .ok i else .error .regIndex

/-- The opcode number of an instruction (30_encoding R94). -/
def Instr.opcode : Instr → BitVec 4
  | .addr _ _ _ => 0
  | .addi _ _ _ => 1
  | .mulr _ _ _ => 2
  | .muli _ _ _ => 3
  | .banr _ _ _ => 4
  | .bani _ _ _ => 5
  | .borr _ _ _ => 6
  | .bori _ _ _ => 7
  | .setr _ _ _ => 8
  | .seti _ _ _ => 9
  | .gtir _ _ _ => 10
  | .gtri _ _ _ => 11
  | .gtrr _ _ _ => 12
  | .eqir _ _ _ => 13
  | .eqri _ _ _ => 14
  | .eqrr _ _ _ => 15

/-- The operands (a, b, c) of an instruction (30_encoding R80). -/
def Instr.operands : Instr → Int × Int × Int
  | .addr a b c | .addi a b c | .mulr a b c | .muli a b c
  | .banr a b c | .bani a b c | .borr a b c | .bori a b c
  | .setr a b c | .seti a b c
  | .gtir a b c | .gtri a b c | .gtrr a b c
  | .eqir a b c | .eqri a b c | .eqrr a b c => (a, b, c)

/-- The word with the given lanes, the concatenation of C, B, A, OPL from the top (30_encoding R92). -/
def packLanes (cfg : Config) (o a b c : Word cfg.W) : InstrWord cfg :=
  (((c ++ b) ++ a) ++ o).cast (by omega)

/-- The encoder: OP in OPL[3:0], the reserved bits 0, lanes A = bv_W(a), B = bv_W(b), C = bv_W(c) (30_encoding
R105). For setr and seti the b is encoded as given. -/
def encode (cfg : Config) (i : Instr) : InstrWord cfg :=
  packLanes cfg (i.opcode.setWidth cfg.W) (bv cfg.W i.operands.1) (bv cfg.W i.operands.2.1)
    (bv cfg.W i.operands.2.2)

/-- The number of bytes in which a host moves an instruction word: enough for 4W bits (20_memory R65). When 4W is no
multiple of 8 the last byte has spare bits (notes/assumptions/13.md). -/
def bytesPerWord (cfg : Config) : Nat := (4 * cfg.W + 7) / 8

/-- A word as the bytes of a transfer: byte k holds bits [8k+7:8k], little-endian (20_memory R65). -/
def wordToBytes (cfg : Config) (w : InstrWord cfg) : List (BitVec 8) :=
  (List.range (bytesPerWord cfg)).map fun k => w.extractLsb' (8 * k) 8

/-- The number that a list of bytes holds, the first byte least significant (20_memory R65). -/
def bytesToNat : List (BitVec 8) → Nat
  | [] => 0
  | b :: bs => b.toNat + 256 * bytesToNat bs

/-- The word that a transfer of bytes holds (20_memory R65). Spare bits of the last byte are ignored. -/
def wordOfBytes (cfg : Config) (bs : List (BitVec 8)) : InstrWord cfg :=
  BitVec.ofNat (4 * cfg.W) (bytesToNat bs)

/-- The decoder on the bytes of a transfer, total on any bytes. -/
def decodeBytes (cfg : Config) (bs : List (BitVec 8)) : Except Illegal Instr :=
  decode cfg (wordOfBytes cfg bs)

/-- The instruction the decoder reads, in the reference configuration, from a word whose low `nbits` bits are those
of `w` and whose other bits are 0. The table's numbering is the word's own (30_encoding R92): bit 0 of lane OPL
first. -/
def decodeTableWord (nbits w : Nat) : Option Instr :=
  match decode Config.reference (BitVec.ofNat (4 * Config.reference.W) (w % 2 ^ nbits)) with
  | .ok i => some i
  | .error _ => none

end Sys2Proof
end

