-- ==== Sys2Proof/Machine/State.lean ====
section
/-!
DEFINITION. The state of the core, its reset value, and the types of faults and refusals (10_state R20, R50).
-/

namespace Sys2Proof.Machine

/-- A memory of words of `n` bits by position: the written entries only, positions strictly rising. An unlisted
position is unwritten and has no value (20_memory R61; notes/assumptions/2.md). -/
abbrev Memory (n : Nat) : Type := List (Nat × BitVec n)

/-- STATUS.STATE (10_state R43). The numbers 5, 6 and 7 are never produced, so they have no constructor
(93_implementation_defined I19). -/
inductive RunState where
  | idle
  | running
  | haltedNormal
  | haltedCapped
  | faulted
deriving DecidableEq, Repr

/-- The load errors of 60_exceptions R201 (code 0, "none", is no error). -/
inductive LoadError where
  /-- R202: found by the text loader. -/
  | unknownMnemonic
  /-- R203: found by the text loader. -/
  | badTokenCount
  /-- R204: found by the text loader. -/
  | badInteger
  /-- R205: found by the text loader, or by the core on an IPSEL write. -/
  | badIpDirective
  /-- R206: found at construction; the core never sets it. -/
  | registerCount
  /-- R207: found by the text loader, or by the core on an IMEM write. -/
  | operandOutOfRange
  /-- R208: found by the text loader, or by the core on an IMEM or PLEN write. -/
  | programTooLong
  /-- R209: found by the core on an IMEM write. -/
  | badOpcodeField
  /-- R210: found by the core at START. -/
  | incompleteProgram
deriving DecidableEq, Repr

/-- The run-time fault causes of 60_exceptions R213 (code 0, "none", is no fault). -/
inductive FaultCode where
  /-- Code 1: the fetched word has OPL[W-1:4] ≠ 0. -/
  | illegalOpcode
  /-- Code 2: a register-mode operand or c is not in [0, NREG). -/
  | regIndexOutOfRange
  /-- Code 3: the fetched IMEM entry was never written. -/
  | unwrittenInstruction
deriving DecidableEq, Repr

/-- The complete state of a core with parameters `cfg`: exactly the components of 10_state R20. The program counter
is x[IPSEL] and has no storage of its own (R25). -/
structure CoreState (cfg : Config) where
  /-- The register file: NREG registers of W bits (R21). -/
  x : Vector (Word cfg.W) cfg.NREG
  /-- The index of the instruction-pointer register (R25, R41). -/
  ipsel : Fin cfg.NREG
  /-- The instruction memory (20_memory R61). -/
  imem : Memory (4 * cfg.W)
  /-- The program length, in [0, MAXPROG] (R42). -/
  plen : Fin (cfg.MAXPROG + 1)
  /-- CAP.EN (R44). -/
  capEn : Bool
  /-- CAP.N (R44). -/
  capN : BitVec CW
  /-- The number of executed instructions since the run started (R45). -/
  iter : BitVec CW
  /-- STATUS.STATE (R43). -/
  runState : RunState
  /-- STATUS.LOAD_ERR (R43). -/
  loadErr : Bool
  /-- STATUS.LOAD_CODE (R43). -/
  loadCode : BitVec 4
  /-- STATUS.FAULT_CODE (R43). -/
  faultCode : BitVec 4
  /-- FAULT_PC (R46). -/
  faultPc : Word cfg.W
deriving DecidableEq, Repr

/-- A machine: its construction parameters, which nothing changes, and the state of its core. -/
structure State where
  /-- The construction parameters (00_scope R7; notes/assumptions/1.md). -/
  cfg : Config
  /-- The state of the core (10_state R20). -/
  core : CoreState cfg
deriving DecidableEq, Repr

/-- Reasons for which the model stops where the hardware goes on: there are none. A run-time fault of the spec is the
terminal state FAULTED, a next state (60_exceptions R212; notes/assumptions/4.md). Safe. -/
inductive Fault : Type
deriving DecidableEq, Repr

/-- Reasons for which an instruction has no meaning. -/
inductive Refusal where
  /-- An instruction without a meaning, by its mnemonic. No arm of exec raises it: all 16 are modelled. Safe. -/
  | notModelled (mnemonic : String)
deriving DecidableEq, Repr

/-- The index of the ip register after reset: IP_DEFAULT = min(1, NREG-1) (00_scope R7, 92_eei_decisions D5). -/
def ipDefault (cfg : Config) : Fin cfg.NREG :=
  ⟨min 1 (cfg.NREG - 1), by have := cfg.NREG_pos; omega⟩

/-- Every piece of state at the value of 10_state R50 (70_reset_and_hazards R240). -/
def CoreState.reset (cfg : Config) : CoreState cfg :=
  { x := Vector.replicate cfg.NREG 0
    ipsel := ipDefault cfg
    imem := []
    plen := 0
    capEn := false
    capN := 0
    iter := 0
    runState := .idle
    loadErr := false
    loadCode := 0
    faultCode := 0
    faultPc := 0 }

/-- A core with parameters `cfg` right after reset. -/
def State.resetOf (cfg : Config) : State := ⟨cfg, CoreState.reset cfg⟩

/-- The reference core (00_scope R7) right after reset. -/
def State.reset : State := State.resetOf Config.reference

end Sys2Proof.Machine
end

