-- ==== Sys2Proof/Machine/Ops.lean ====
section
/-!
DEFINITION. The named operations over registers and instruction memory, the write-back with the ip increment and the
iteration count, taking a fault, and recording a load error.

There is no return from a fault: FAULTED is terminal (60_exceptions R220).
-/

namespace Sys2Proof.Machine

/-! ### The instruction memory (20_memory R61) -/

/-- The word at a position, or none when the entry is unwritten. -/
def Memory.read {n : Nat} : Memory n → Nat → Option (BitVec n)
  | [], _ => none
  | (q, v) :: m, p => if q = p then some v else Memory.read m p

/-- The memory with the word `v` at position `p`; every other entry as it was. -/
def Memory.write {n : Nat} (p : Nat) (v : BitVec n) : Memory n → Memory n
  | [] => [(p, v)]
  | (q, u) :: m =>
    if p < q then (p, v) :: (q, u) :: m
    else if p = q then (p, v) :: m
    else (q, u) :: Memory.write p v m

/-- The canonical form: every entry at a position in [lo, size), positions strictly rising. -/
def Memory.wfFrom {n : Nat} (size : Nat) : Nat → Memory n → Bool
  | _, [] => true
  | lo, (p, _) :: m => decide (lo ≤ p ∧ p < size) && Memory.wfFrom size (p + 1) m

/-- The canonical form of a memory with positions [0, size). Every listed entry is written, so none equals what an
unlisted position reads as. -/
def Memory.wf {n : Nat} (size : Nat) (m : Memory n) : Bool := Memory.wfFrom size 0 m

/-! ### The register file (10_state R21 to R25) -/

/-- `x[i]` (00_scope R10). -/
def CoreState.reg {cfg : Config} (c : CoreState cfg) (i : Fin cfg.NREG) : Word cfg.W := c.x[i]

/-- `x[i] <- v` (00_scope R10). -/
def CoreState.setReg {cfg : Config} (c : CoreState cfg) (i : Fin cfg.NREG) (v : Word cfg.W) : CoreState cfg :=
  { c with x := c.x.set i v }

/-- The program counter is x[IPSEL] (10_state R25). -/
def CoreState.pc {cfg : Config} (c : CoreState cfg) : Word cfg.W := c.reg c.ipsel

/-! ### The end of an executed instruction (40_execution_cycle R126 to R128) -/

/-- The ip auto-increment: `x[IPSEL] <- x[IPSEL] + bv_W(1)`, reading x[IPSEL] as it is now (R127). -/
def CoreState.bumpIp {cfg : Config} (c : CoreState cfg) : CoreState cfg :=
  c.setReg c.ipsel (c.pc + BitVec.ofNat cfg.W 1)

/-- The cap is in force when CAP.EN = 1 and CAP.N ≠ 0 (10_state R44). -/
def CoreState.capInForce {cfg : Config} (c : CoreState cfg) : Bool := c.capEn && decide (c.capN ≠ 0)

/-- ITER + 1 modulo 2^CW, then HALTED_CAPPED when the cap in force is reached (R128). -/
def CoreState.countInstr {cfg : Config} (c : CoreState cfg) : CoreState cfg :=
  { c with
    iter := c.iter + 1
    runState := if c.capInForce ∧ c.iter + 1 = c.capN then .haltedCapped else c.runState }

/-- Write-back of result `v` to x[k], then the ip increment, then the iteration count and the cap: what every
executed instruction does after computing its result (R126, R127, R128). -/
def CoreState.retire {cfg : Config} (c : CoreState cfg) (k : Fin cfg.NREG) (v : Word cfg.W) : CoreState cfg :=
  (c.setReg k v).bumpIp.countInstr

/-! ### Halts and faults -/

/-- The bounds halt: STATE becomes HALTED_NORMAL, nothing else changes (R122). -/
def CoreState.haltNormal {cfg : Config} (c : CoreState cfg) : CoreState cfg :=
  { c with runState := .haltedNormal }

/-- The numbers of the fault codes (60_exceptions R213). -/
def FaultCode.number : FaultCode → BitVec 4
  | .illegalOpcode => 1
  | .regIndexOutOfRange => 2
  | .unwrittenInstruction => 3

/-- Fault entry: STATE = FAULTED, FAULT_CODE = the code, FAULT_PC = x[IPSEL] at the start of the step; nothing else
changes (60_exceptions R212). -/
def CoreState.takeFault {cfg : Config} (c : CoreState cfg) (f : FaultCode) : CoreState cfg :=
  { c with runState := .faulted, faultCode := f.number, faultPc := c.pc }

/-! ### Load errors -/

/-- The numbers of the load errors (60_exceptions R201). -/
def LoadError.number : LoadError → BitVec 4
  | .unknownMnemonic => 1
  | .badTokenCount => 2
  | .badInteger => 3
  | .badIpDirective => 4
  | .registerCount => 5
  | .operandOutOfRange => 6
  | .programTooLong => 7
  | .badOpcodeField => 8
  | .incompleteProgram => 9

/-- Recording a load error: the first since reset sets LOAD_ERR and LOAD_CODE, a later one changes nothing
(60_exceptions R211). -/
def CoreState.recordLoadError {cfg : Config} (c : CoreState cfg) (e : LoadError) : CoreState cfg :=
  if c.loadErr then c else { c with loadErr := true, loadCode := e.number }

end Sys2Proof.Machine
end

