-- ==== Sys2Proof/Machine/Operands.lean ====
section
/-!
DEFINITION. The operand forms of the 16 instructions (30_encoding R94 to R98) as one shared operation each: check the
register operands, read, apply the function, retire.

Register-mode operands and c are checked, in the order a, b, c, before any register is read or written; a failed check
is the fault REG_INDEX_OUT_OF_RANGE (40_execution_cycle R121, 60_exceptions R213). Immediate and unused operands are
never checked.
-/

namespace Sys2Proof.Machine

/-- The register an operand names: valid exactly when 0 ≤ n < NREG (30_encoding R98). -/
def regIndex? (cfg : Config) (n : Int) : Option (Fin cfg.NREG) :=
  if h : 0 ≤ n ∧ n < cfg.NREG then some ⟨n.toNat, by omega⟩ else none

/-- A function of two operand values: FN of 40_execution_cycle R125, at any width. -/
abbrev OperandFn : Type := (w : Nat) → Word w → Word w → Word w

/-- The body of an instruction with a and b register-mode: `x[c] <- FN(x[a], x[b])`. -/
def formRR (fn : OperandFn) (a b c : Int) (s : State) : CoreState s.cfg :=
  match regIndex? s.cfg a, regIndex? s.cfg b, regIndex? s.cfg c with
  | some ia, some ib, some ic => s.core.retire ic (fn s.cfg.W (s.core.reg ia) (s.core.reg ib))
  | _, _, _ => s.core.takeFault .regIndexOutOfRange

/-- The body of an instruction with a register-mode and b immediate: `x[c] <- FN(x[a], B)`. -/
def formRI (fn : OperandFn) (a b c : Int) (s : State) : CoreState s.cfg :=
  match regIndex? s.cfg a, regIndex? s.cfg c with
  | some ia, some ic => s.core.retire ic (fn s.cfg.W (s.core.reg ia) (bv s.cfg.W b))
  | _, _ => s.core.takeFault .regIndexOutOfRange

/-- The body of an instruction with a immediate and b register-mode: `x[c] <- FN(A, x[b])`. -/
def formIR (fn : OperandFn) (a b c : Int) (s : State) : CoreState s.cfg :=
  match regIndex? s.cfg b, regIndex? s.cfg c with
  | some ib, some ic => s.core.retire ic (fn s.cfg.W (bv s.cfg.W a) (s.core.reg ib))
  | _, _ => s.core.takeFault .regIndexOutOfRange

/-- The body of an instruction with a register-mode and b unused: `x[c] <- SET(x[a])` (43_assignment R170, R171). -/
def formR (a c : Int) (s : State) : CoreState s.cfg :=
  match regIndex? s.cfg a, regIndex? s.cfg c with
  | some ia, some ic => s.core.retire ic (s.core.reg ia)
  | _, _ => s.core.takeFault .regIndexOutOfRange

/-- The body of an instruction with a immediate and b unused: `x[c] <- SET(A)` (43_assignment R170, R172). -/
def formI (a c : Int) (s : State) : CoreState s.cfg :=
  match regIndex? s.cfg c with
  | some ic => s.core.retire ic (bv s.cfg.W a)
  | none => s.core.takeFault .regIndexOutOfRange

/-- The outcome whose next state is the same machine with the core state `c`. -/
def State.advance (s : State) (c : CoreState s.cfg) : Host.Outcome State Fault Refusal :=
  .next ⟨s.cfg, c⟩

end Sys2Proof.Machine
end

