-- ==== Sys2Proof/Machine/Functions.lean ====
section
/-!
DEFINITION. The functions ADD, MUL, AND and OR of two operand values (41_arithmetic R150, 42_bitwise R160). SET is
the identity on operand a (43_assignment R170) and stands in the operand forms formR and formI.
-/

namespace Sys2Proof.Machine

/-- `ADD(p, q) = bv_W(u(p) + u(q))` (R150). -/
def fnAdd : OperandFn := fun w p q => BitVec.ofNat w (p.toNat + q.toNat)

/-- `MUL(p, q) = bv_W(u(p) * u(q))` (R150). -/
def fnMul : OperandFn := fun w p q => BitVec.ofNat w (p.toNat * q.toNat)

/-- `AND(p, q) = p & q` (R160). -/
def fnAnd : OperandFn := fun _ p q => p &&& q

/-- `OR(p, q) = p | q` (R160). -/
def fnOr : OperandFn := fun _ p q => p ||| q

end Sys2Proof.Machine
end

