-- ==== Sys2Proof/Machine/Arithmetic.lean ====
section
/-!
DEFINITION. The arithmetic instructions addr, addi, mulr, muli (41_arithmetic).

Each is the part of a step from operand assembly on (40_execution_cycle R121); the state is the one the fetch left.
-/

namespace Sys2Proof.Machine

/-- `addr a b c`: `x[c] <- ADD(x[a], x[b])` (R151). -/
def execAddr (a b c : Int) (s : State) : Host.Outcome State Fault Refusal :=
  s.advance (formRR fnAdd a b c s)

/-- `addi a b c`: `x[c] <- ADD(x[a], B)` (R152). -/
def execAddi (a b c : Int) (s : State) : Host.Outcome State Fault Refusal :=
  s.advance (formRI fnAdd a b c s)

/-- `mulr a b c`: `x[c] <- MUL(x[a], x[b])` (R153). -/
def execMulr (a b c : Int) (s : State) : Host.Outcome State Fault Refusal :=
  s.advance (formRR fnMul a b c s)

/-- `muli a b c`: `x[c] <- MUL(x[a], B)` (R154). -/
def execMuli (a b c : Int) (s : State) : Host.Outcome State Fault Refusal :=
  s.advance (formRI fnMul a b c s)

end Sys2Proof.Machine
end

