-- ==== Sys2Proof/Machine/Assignment.lean ====
section
/-!
DEFINITION. The assignment instructions setr, seti (43_assignment).

Each is the part of a step from operand assembly on (40_execution_cycle R121); the state is the one the fetch left.
-/

namespace Sys2Proof.Machine

/-- `setr a b c`: `x[c] <- x[a]`; b is unused (R171). -/
def execSetr (a _b c : Int) (s : State) : Host.Outcome State Fault Refusal :=
  s.advance (formR a c s)

/-- `seti a b c`: `x[c] <- A`; b is unused (R172). -/
def execSeti (a _b c : Int) (s : State) : Host.Outcome State Fault Refusal :=
  s.advance (formI a c s)

end Sys2Proof.Machine
end

