-- ==== Sys2Proof/Machine/Bitwise.lean ====
section
/-!
DEFINITION. The bitwise instructions banr, bani, borr, bori (42_bitwise).

Each is the part of a step from operand assembly on (40_execution_cycle R121); the state is the one the fetch left.
-/

namespace Sys2Proof.Machine

/-- `banr a b c`: `x[c] <- AND(x[a], x[b])` (R161). -/
def execBanr (a b c : Int) (s : State) : Host.Outcome State Fault Refusal :=
  s.advance (formRR fnAnd a b c s)

/-- `bani a b c`: `x[c] <- AND(x[a], B)` (R162). -/
def execBani (a b c : Int) (s : State) : Host.Outcome State Fault Refusal :=
  s.advance (formRI fnAnd a b c s)

/-- `borr a b c`: `x[c] <- OR(x[a], x[b])` (R163). -/
def execBorr (a b c : Int) (s : State) : Host.Outcome State Fault Refusal :=
  s.advance (formRR fnOr a b c s)

/-- `bori a b c`: `x[c] <- OR(x[a], B)` (R164). -/
def execBori (a b c : Int) (s : State) : Host.Outcome State Fault Refusal :=
  s.advance (formRI fnOr a b c s)

end Sys2Proof.Machine
end

