-- ==== Sys2Proof/Machine/Flags.lean ====
section
/-!
DEFINITION. The comparison outcomes GT and EQ (44_comparison R180).

The core has no flags (10_state R28): a comparison delivers its outcome as the value 0 or 1 in x[c].
-/

namespace Sys2Proof.Machine

/-- An outcome as a register value: bv_W(1) when it holds, bv_W(0) when it does not (R180). -/
def outcomeWord (w : Nat) (holds : Bool) : Word w := if holds then BitVec.ofNat w 1 else BitVec.ofNat w 0

/-- `GT(p, q) = (s(p) > s(q)) ? bv_W(1) : bv_W(0)`, a signed comparison (R180). -/
def fnGt : OperandFn := fun w p q => outcomeWord w (decide (p.toInt > q.toInt))

/-- `EQ(p, q) = (p == q) ? bv_W(1) : bv_W(0)`, equality of the bit patterns (R180). -/
def fnEq : OperandFn := fun w p q => outcomeWord w (decide (p = q))

end Sys2Proof.Machine
end

