-- ==== Sys2Proof/Machine/Comparison.lean ====
section
/-!
DEFINITION. The comparison instructions gtir, gtri, gtrr, eqir, eqri, eqrr (44_comparison).

Each is the part of a step from operand assembly on (40_execution_cycle R121); the state is the one the fetch left.
-/

namespace Sys2Proof.Machine

/-- `gtir a b c`: `x[c] <- GT(A, x[b])` (R181). -/
def execGtir (a b c : Int) (s : State) : Host.Outcome State Fault Refusal :=
  s.advance (formIR fnGt a b c s)

/-- `gtri a b c`: `x[c] <- GT(x[a], B)` (R182). -/
def execGtri (a b c : Int) (s : State) : Host.Outcome State Fault Refusal :=
  s.advance (formRI fnGt a b c s)

/-- `gtrr a b c`: `x[c] <- GT(x[a], x[b])` (R183). -/
def execGtrr (a b c : Int) (s : State) : Host.Outcome State Fault Refusal :=
  s.advance (formRR fnGt a b c s)

/-- `eqir a b c`: `x[c] <- EQ(A, x[b])` (R184). -/
def execEqir (a b c : Int) (s : State) : Host.Outcome State Fault Refusal :=
  s.advance (formIR fnEq a b c s)

/-- `eqri a b c`: `x[c] <- EQ(x[a], B)` (R185). -/
def execEqri (a b c : Int) (s : State) : Host.Outcome State Fault Refusal :=
  s.advance (formRI fnEq a b c s)

/-- `eqrr a b c`: `x[c] <- EQ(x[a], x[b])` (R186). -/
def execEqrr (a b c : Int) (s : State) : Host.Outcome State Fault Refusal :=
  s.advance (formRR fnEq a b c s)

end Sys2Proof.Machine
end

