-- ==== Sys2Proof/Machine/Dispatch.lean ====
section
/-!
DEFINITION. exec: one arm per instruction (30_encoding R94; 40_execution_cycle R125).
-/

namespace Sys2Proof.Machine

def exec (i : Instr) (s : State) : Host.Outcome State Fault Refusal :=
  match i with
  | .addr a b c => Sys2Proof.Machine.execAddr a b c s
  | .addi a b c => Sys2Proof.Machine.execAddi a b c s
  | .mulr a b c => Sys2Proof.Machine.execMulr a b c s
  | .muli a b c => Sys2Proof.Machine.execMuli a b c s
  | .banr a b c => Sys2Proof.Machine.execBanr a b c s
  | .bani a b c => Sys2Proof.Machine.execBani a b c s
  | .borr a b c => Sys2Proof.Machine.execBorr a b c s
  | .bori a b c => Sys2Proof.Machine.execBori a b c s
  | .setr a b c => Sys2Proof.Machine.execSetr a b c s
  | .seti a b c => Sys2Proof.Machine.execSeti a b c s
  | .gtir a b c => Sys2Proof.Machine.execGtir a b c s
  | .gtri a b c => Sys2Proof.Machine.execGtri a b c s
  | .gtrr a b c => Sys2Proof.Machine.execGtrr a b c s
  | .eqir a b c => Sys2Proof.Machine.execEqir a b c s
  | .eqri a b c => Sys2Proof.Machine.execEqri a b c s
  | .eqrr a b c => Sys2Proof.Machine.execEqrr a b c s

end Sys2Proof.Machine
end

