-- ==== Sys2Proof/Machine/Fetch.lean ====
section
/-!
DEFINITION. The instruction fetch (20_memory R62; 40_execution_cycle R121 to R123).
-/

namespace Sys2Proof.Machine

/-- The bounds test of a step: 0 ≤ s(pc) < PLEN (40_execution_cycle R122). -/
def CoreState.pcInProgram {cfg : Config} (c : CoreState cfg) : Bool :=
  decide (0 ≤ c.pc.toInt ∧ c.pc.toInt < (c.plen.val : Int))

/-- What the fetch of a step finds, in the order of 60_exceptions R217. -/
inductive Fetched where
  /-- The pc is outside [0, PLEN): nothing is fetched (R122). -/
  | outside
  /-- The step raises this fault before it has an instruction (60_exceptions R213). -/
  | fault (f : FaultCode)
  /-- The fetched instruction; its register operands are checked next, by its meaning. -/
  | instr (i : Instr)
deriving DecidableEq, Repr

/-- The fault that the decoder's reason for refusing a fetched word raises (30_encoding R99). -/
def Illegal.fault : Illegal → FaultCode
  | .reservedBits => .illegalOpcode
  | .regIndex => .regIndexOutOfRange

/-- The fetch: the bounds test, then the entry IMEM[u(pc)], then its opcode lane (40_execution_cycle R121). -/
def CoreState.fetch {cfg : Config} (c : CoreState cfg) : Fetched :=
  if c.pcInProgram then
    match c.imem.read c.pc.toNat with
    | none => .fault .unwrittenInstruction
    | some w =>
      match readWord cfg w with
      | .error e => .fault (Illegal.fault e)
      | .ok i => .instr i
  else .outside

/-- The core with the word `w` stored at position `p`, the program long enough to hold it, and STATE = RUNNING. The
word does not pass the load-port check: this is the set-up of 95_test_vectors section 3a. -/
def CoreState.placeAt {cfg : Config} (c : CoreState cfg) (p : Nat) (h : p < cfg.MAXPROG) (w : InstrWord cfg) :
    CoreState cfg :=
  { c with
    imem := c.imem.write p w
    plen := ⟨max c.plen.val (p + 1), by have := c.plen.isLt; omega⟩
    runState := .running }

/-- The core with `w` where its next step fetches: at position u(pc), or, when the pc is no position of IMEM, at
position 0 with the pc there. Without any entry (MAXPROG = 0) nothing can run and nothing is placed
(notes/assumptions/5.md). -/
def CoreState.placeWord {cfg : Config} (c : CoreState cfg) (w : InstrWord cfg) : CoreState cfg :=
  if h : c.pc.toNat < cfg.MAXPROG then c.placeAt c.pc.toNat h w
  else if h0 : 0 < cfg.MAXPROG then (c.setReg c.ipsel 0).placeAt 0 h0 w
  else c

end Sys2Proof.Machine
end

