-- ==== Sys2Proof/Machine/Step.lean ====
section
/-!
DEFINITION. The step (40_execution_cycle R121), and the placing of an instruction where it is fetched.
-/

namespace Sys2Proof.Machine

/-- One step: in RUNNING the fetch and then the bounds halt, the fault, or the instruction; in IDLE and the terminal
states nothing happens (40_execution_cycle R121, R142; 60_exceptions R226; notes/assumptions/3.md). -/
def step (s : State) : Host.Outcome State Fault Refusal :=
  match s.core.runState with
  | .running =>
    match s.core.fetch with
    | .outside => s.advance s.core.haltNormal
    | .fault f => s.advance (s.core.takeFault f)
    | .instr i => exec i s
  | .idle => .next s
  | .haltedNormal => .next s
  | .haltedCapped => .next s
  | .faulted => .next s

/-- The state with the instruction word `w` (its low `nbits` bits, the others 0) where the next step fetches, ready
to run it (notes/assumptions/5.md). -/
def State.withFetchWord (s : State) (nbits w : Nat) : State :=
  ⟨s.cfg, s.core.placeWord (BitVec.ofNat (4 * s.cfg.W) (w % 2 ^ nbits))⟩

end Sys2Proof.Machine
end

