-- ==== Sys2Proof/Machine/HostPort.lean ====
section
/-!
DEFINITION. The host's side of the core: the control and status register map, the IMEM load port, START, the
inspection port and the iteration-cap operation (10_state R33, R40 to R47; 20_memory R61; 30_encoding R104;
70_reset_and_hazards R240 to R247).

No instruction reaches any of this (10_state R48).
-/

namespace Sys2Proof.Machine

/-! ### Widths -/

/-- ceil(log2 n), for n at least 1. -/
def ceilLog2 (n : Nat) : Nat := if n ≤ 1 then 0 else Nat.log2 (n - 1) + 1

/-- K: the width of a register-index port, max(1, ceil(log2 NREG)) (00_scope R7). -/
def indexWidth (cfg : Config) : Nat := max 1 (ceilLog2 cfg.NREG)

/-- The width of PLEN: ceil(log2(MAXPROG+1)), at least 1 (10_state R40). -/
def plenWidth (cfg : Config) : Nat := max 1 (ceilLog2 (cfg.MAXPROG + 1))

/-- The widths of the control and status registers (10_state R40). A number above 7 names no register: reads give 0
and writes do nothing, whatever the width (notes/assumptions/8.md). -/
abbrev csrWidth (cfg : Config) : Nat → Nat
  | 0 => 32
  | 1 => indexWidth cfg
  | 2 => plenWidth cfg
  | 3 => 1
  | 4 => CW
  | 5 => CW
  | 6 => cfg.W
  | 7 => 1
  | _ => 32

/-! ### Reading -/

/-- The numbers of STATUS.STATE (10_state R43). -/
def RunState.number : RunState → BitVec 3
  | .idle => 0
  | .running => 1
  | .haltedNormal => 2
  | .haltedCapped => 3
  | .faulted => 4

/-- STATUS: [31:12] 0, [11:8] FAULT_CODE, [7:4] LOAD_CODE, [3] LOAD_ERR, [2:0] STATE (10_state R43). -/
def CoreState.status {cfg : Config} (c : CoreState cfg) : BitVec 32 :=
  (0 : BitVec 20) ++ c.faultCode ++ c.loadCode ++ BitVec.ofBool c.loadErr ++ c.runState.number

/-- A host read of a control or status register (10_state R40). It has no side effect. -/
def CoreState.csrRead {cfg : Config} (c : CoreState cfg) : (num : Nat) → BitVec (csrWidth cfg num)
  | 0 => c.status
  | 1 => BitVec.ofNat (indexWidth cfg) c.ipsel.val
  | 2 => BitVec.ofNat (plenWidth cfg) c.plen.val
  | 3 => BitVec.ofBool c.capEn
  | 4 => c.capN
  | 5 => c.iter
  | 6 => c.faultPc
  | 7 => 0
  | _ + 8 => 0

/-- A read port with a K-bit index: combinational, the register it names (10_state R31, R33). An index outside
[0, NREG) names no register (R37). -/
def CoreState.readPort {cfg : Config} (c : CoreState cfg) (idx : BitVec (indexWidth cfg)) : Option (Word cfg.W) :=
  if h : idx.toNat < cfg.NREG then some (c.reg ⟨idx.toNat, h⟩) else none

/-- The inspection port RS: x[rs_idx] (10_state R33). An index outside [0, NREG) fails: the source's `get` "fails with
OutOfRange" (R24; notes/assumptions/9.md). -/
def CoreState.rsData {cfg : Config} (c : CoreState cfg) (idx : BitVec (indexWidth cfg)) : Option (Word cfg.W) :=
  c.readPort idx

/-- The inspection output `rs_vec`: every register, in index order (10_state R33). -/
def CoreState.rsVec {cfg : Config} (c : CoreState cfg) : Vector (Word cfg.W) cfg.NREG := c.x

/-- The source's `snapshot()`: the registers as signed integers, in index order (10_state R24, R33). -/
def CoreState.snapshot {cfg : Config} (c : CoreState cfg) : List Int := c.rsVec.toList.map BitVec.toInt

/-! ### Writing -/

/-- Every position below PLEN holds a word (60_exceptions R210). -/
def CoreState.programComplete {cfg : Config} (c : CoreState cfg) : Bool :=
  (List.range c.plen.val).all fun p => (c.imem.read p).isSome

/-- START (70_reset_and_hazards R245): no effect outside IDLE or after a load error; an incomplete program is a load
error; otherwise STATE becomes RUNNING. -/
def CoreState.start {cfg : Config} (c : CoreState cfg) : CoreState cfg :=
  if c.runState ≠ .idle then c
  else if c.loadErr then c
  else if c.programComplete then { c with runState := .running }
  else c.recordLoadError .incompleteProgram

/-- A host write to IPSEL in IDLE: an index in [0, NREG) is taken, any other value is BAD_IP_DIRECTIVE and changes
nothing else (10_state R41). -/
def CoreState.writeIpsel {cfg : Config} (c : CoreState cfg) (v : Nat) : CoreState cfg :=
  if h : v < cfg.NREG then { c with ipsel := ⟨v, h⟩ } else c.recordLoadError .badIpDirective

/-- A host write to PLEN in IDLE: a length in [0, MAXPROG] is taken, any other value is PROGRAM_TOO_LONG and changes
nothing else (10_state R42). -/
def CoreState.writePlen {cfg : Config} (c : CoreState cfg) (v : Nat) : CoreState cfg :=
  if h : v < cfg.MAXPROG + 1 then { c with plen := ⟨v, h⟩ } else c.recordLoadError .programTooLong

/-- A host write to a control or status register (10_state R40): the writable ones only in IDLE, a write to a
read-only register or to a number above 7 has no effect, and CMD with bit 0 set is START (R47). -/
def CoreState.csrWrite {cfg : Config} (c : CoreState cfg) (num : Nat) (v : BitVec (csrWidth cfg num)) :
    CoreState cfg :=
  match num with
  | 1 => if c.runState = .idle then c.writeIpsel v.toNat else c
  | 2 => if c.runState = .idle then c.writePlen v.toNat else c
  | 3 => if c.runState = .idle then { c with capEn := v.getLsbD 0 } else c
  | 4 => if c.runState = .idle then { c with capN := v } else c
  | 7 => if v.getLsbD 0 then c.start else c
  | _ => c

/-- The load-port check of a word written at position p (30_encoding R104), the first failed check as its error. -/
def loadPortCheck (cfg : Config) (p : Nat) (w : InstrWord cfg) : Except LoadError Unit :=
  if cfg.MAXPROG ≤ p then .error .programTooLong
  else match decode cfg w with
    | .error .reservedBits => .error .badOpcodeField
    | .error .regIndex => .error .operandOutOfRange
    | .ok _ => .ok ()

/-- A host write of word w at position p through the load port: no effect outside IDLE (20_memory R61); a word that
passes the check is stored, one that fails is not and its load error is recorded (30_encoding R104). -/
def CoreState.imemWrite {cfg : Config} (c : CoreState cfg) (p : Nat) (w : InstrWord cfg) : CoreState cfg :=
  if c.runState = .idle then
    match loadPortCheck cfg p w with
    | .error e => c.recordLoadError e
    | .ok _ => { c with imem := c.imem.write p w }
  else c

/-! ### Host operations as data -/

/-- What the host can drive in one clock cycle beside reset: a register write or a load-port write
(notes/assumptions/6.md). Values are numbers; the port carries as many of their low bits as it has wires
(notes/assumptions/7.md). -/
inductive HostOp where
  /-- Write `value` to control register number `num` (10_state R40). -/
  | csrWrite (num value : Nat)
  /-- Write `word` at position `addr` of IMEM (20_memory R61). -/
  | imemWrite (addr word : Nat)
deriving DecidableEq, Repr

/-- The core after a host operation. -/
def CoreState.applyOp {cfg : Config} (c : CoreState cfg) : HostOp → CoreState cfg
  | .csrWrite num value => c.csrWrite num (BitVec.ofNat (csrWidth cfg num) value)
  | .imemWrite addr word => c.imemWrite addr (BitVec.ofNat (4 * cfg.W) word)

/-- The core after a list of host operations, in order. -/
def CoreState.applyOps {cfg : Config} (c : CoreState cfg) (ops : List HostOp) : CoreState cfg :=
  ops.foldl CoreState.applyOp c

/-- The register writes of the source's `set_iteration_cap(n)` (70_reset_and_hazards R244): n ≤ 0 turns the cap off;
1 ≤ n < 2^CW sets it; a larger n the host refuses before it reaches the core, here none. -/
def setIterationCap (n : Int) : Option (List HostOp) :=
  if n ≤ 0 then some [.csrWrite 3 0, .csrWrite 4 0]
  else if n < 2 ^ CW then some [.csrWrite 4 n.toNat, .csrWrite 3 1]
  else none

/-- The START command (10_state R47). -/
def startOp : HostOp := .csrWrite 7 1

end Sys2Proof.Machine
end

