-- ==== Sys2Proof/Machine/Construct.lean ====
section
/-!
DEFINITION. Construction of a core (70_reset_and_hazards R241; 60_exceptions R206; 00_scope R7).
-/

namespace Sys2Proof.Machine

/-- Why a core cannot be built. -/
inductive BuildRefusal where
  /-- REGISTER_COUNT: the register count is at most 0 (60_exceptions R206). -/
  | registerCount
  /-- W is below 8 (00_scope R7). -/
  | width
  /-- NREG is above 2^(W-1) - 1 (00_scope R7). -/
  | tooManyRegisters
  /-- MAXPROG is above 2^(W-1) - 1 (00_scope R7). -/
  | capacity
deriving DecidableEq, Repr

/-- The load-error code a refused construction reports, where the spec gives one (60_exceptions R201). -/
def BuildRefusal.loadError : BuildRefusal → Option LoadError
  | .registerCount => some .registerCount
  | .width => none
  | .tooManyRegisters => none
  | .capacity => none

/-- The source's `new(register_count)`: a core with the given parameters right after reset, or the reason it cannot
be built (70 R241; notes/assumptions/14.md). -/
def construct (width : Nat) (registerCount : Int) (maxprog : Nat) : Except BuildRefusal State :=
  if h0 : registerCount ≤ 0 then .error .registerCount
  else if h1 : width < 8 then .error .width
  else if h2 : 2 ^ (width - 1) - 1 < registerCount.toNat then .error .tooManyRegisters
  else if h3 : 2 ^ (width - 1) - 1 < maxprog then .error .capacity
  else .ok (State.resetOf
    { W := width, NREG := registerCount.toNat, MAXPROG := maxprog
      W_ge := by omega, NREG_pos := by omega, NREG_le := by omega, MAXPROG_le := by omega })

end Sys2Proof.Machine
end

