-- ==== Sys2Proof/Machine/Datapath.lean ====
section
/-!
DEFINITION. The reference single-cycle datapath: the semantic table, the register-file ports RA, RB, RIP and WC, the
IP-update path with its bypass, and the commit at one clock edge (10_state R30 to R37; 30_encoding R94 to R98;
40_execution_cycle R142).

Only the architectural step is normative (10_state R38). This is the reference design written from its own rules, so
that its agreement with Machine/Step.lean can be stated and proved.
-/

namespace Sys2Proof.Machine

/-- The column FN of the semantic table (30_encoding R94). -/
inductive Fn where
  | add | mul | and | or | set | gt | eq
deriving DecidableEq, Repr

/-- The columns AM and BM of the semantic table: `r`, `i`, `-` (30_encoding R94). -/
inductive OperandMode where
  | reg | imm | unused
deriving DecidableEq, Repr

/-- The semantic table: OP to (FN, AM, BM) (30_encoding R94). -/
def semanticTable (op : BitVec 4) : Fn × OperandMode × OperandMode :=
  match op.toNat with
  | 0 => (.add, .reg, .reg)
  | 1 => (.add, .reg, .imm)
  | 2 => (.mul, .reg, .reg)
  | 3 => (.mul, .reg, .imm)
  | 4 => (.and, .reg, .reg)
  | 5 => (.and, .reg, .imm)
  | 6 => (.or, .reg, .reg)
  | 7 => (.or, .reg, .imm)
  | 8 => (.set, .reg, .unused)
  | 9 => (.set, .imm, .unused)
  | 10 => (.gt, .imm, .reg)
  | 11 => (.gt, .reg, .imm)
  | 12 => (.gt, .reg, .reg)
  | 13 => (.eq, .imm, .reg)
  | 14 => (.eq, .reg, .imm)
  | _ => (.eq, .reg, .reg)

/-- The execute unit's functions as circuits: W-bit adder and multiplier, bitwise gates, the signed comparator and
the equality comparator (40_execution_cycle R125; 41 R150, 42 R160, 43 R170, 44 R180). -/
def Fn.circuit {w : Nat} : Fn → Word w → Word w → Word w
  | .add, p, q => p + q
  | .mul, p, q => p * q
  | .and, p, q => p &&& q
  | .or, p, q => p ||| q
  | .set, p, _ => p
  | .gt, p, q => (BitVec.ofBool (BitVec.slt q p)).setWidth w
  | .eq, p, q => (BitVec.ofBool (p == q)).setWidth w

/-- A lane is a valid register index, by the unsigned comparison (30_encoding R98). -/
def validIndex (cfg : Config) (v : Word cfg.W) : Bool := decide (v.toNat < cfg.NREG)

/-- `idx(v) = v[K-1:0]`, which drives a port index (30_encoding R98). -/
def portIndex (cfg : Config) (v : Word cfg.W) : BitVec (indexWidth cfg) := v.setWidth (indexWidth cfg)

/-- The write port WC in one cycle (10_state R34). -/
structure WritePort (cfg : Config) where
  en : Bool
  idx : BitVec (indexWidth cfg)
  data : Word cfg.W
deriving DecidableEq, Repr

/-- The read port RIP: the multiplexer over the registers controlled by IPSEL (10_state R32). -/
def CoreState.ripData {cfg : Config} (c : CoreState cfg) : Word cfg.W := c.x[c.ipsel]

/-- The IP-update path: `ip_next`, with the bypass of `wc_data` into `ip_base` (10_state R35). -/
def CoreState.ipNext {cfg : Config} (c : CoreState cfg) (wc : WritePort cfg) : Word cfg.W :=
  (if wc.en && decide (wc.idx.toNat = c.ipsel.val) then wc.data else c.ripData) + BitVec.ofNat cfg.W 1

/-- The register file after the edge of a cycle that executes an instruction (10_state R36). -/
def CoreState.commitEdge {cfg : Config} (c : CoreState cfg) (wc : WritePort cfg) : Vector (Word cfg.W) cfg.NREG :=
  Vector.ofFn fun i =>
    if i = c.ipsel then c.ipNext wc
    else if wc.en && decide (wc.idx.toNat = i.val) then wc.data
    else c.x[i]

/-- An operand value as the decoder assembles it: the lane itself or the data of its read port; bv_W(0) when unused
(30_encoding R96). -/
def CoreState.operandValue {cfg : Config} (c : CoreState cfg) (mode : OperandMode) (v : Word cfg.W) :
    Option (Word cfg.W) :=
  match mode with
  | .reg => c.readPort (portIndex cfg v)
  | .imm => some v
  | .unused => some (BitVec.ofNat cfg.W 0)

/-- The edge of a cycle that executes an instruction: registers, ITER and STATE commit together (R36, R128). -/
def CoreState.executeEdge {cfg : Config} (c : CoreState cfg) (wc : WritePort cfg) : CoreState cfg :=
  { c with
    x := c.commitEdge wc
    iter := c.iter + 1
    runState := if c.capEn && c.capN != 0 && c.iter + 1 == c.capN then .haltedCapped else .running }

/-- The edge of a cycle that faults: STATE, FAULT_CODE and FAULT_PC (60_exceptions R212). -/
def CoreState.faultEdge {cfg : Config} (c : CoreState cfg) (code : BitVec 4) : CoreState cfg :=
  { c with runState := .faulted, faultCode := code, faultPc := c.ripData }

/-- The decoder and the execute unit on a fetched word (40_execution_cycle R121): reserved bits, then lanes A, B, C
as register indices where they are register-mode, then the function and the write port. -/
def CoreState.executeWord {cfg : Config} (c : CoreState cfg) (w : InstrWord cfg) : CoreState cfg :=
  if reservedBits cfg w ≠ 0 then c.faultEdge 1
  else
    let (fn, am, bm) := semanticTable (opcodeOf cfg w)
    if am = .reg ∧ validIndex cfg (laneA cfg w) = false then c.faultEdge 2
    else if bm = .reg ∧ validIndex cfg (laneB cfg w) = false then c.faultEdge 2
    else if validIndex cfg (laneC cfg w) = false then c.faultEdge 2
    else
      match c.operandValue am (laneA cfg w), c.operandValue bm (laneB cfg w) with
      | some va, some vb =>
        c.executeEdge { en := true, idx := portIndex cfg (laneC cfg w), data := fn.circuit va vb }
      | _, _ => c.faultEdge 2

/-- One cycle of the reference design without host events (40_execution_cycle R142): the bounds check is the unsigned
comparison u(pc) < PLEN that 20_memory R63 allows. -/
def CoreState.datapathCycle {cfg : Config} (c : CoreState cfg) : CoreState cfg :=
  if c.runState = .running then
    if c.ripData.toNat < c.plen.val then
      match c.imem.read c.ripData.toNat with
      | none => c.faultEdge 3
      | some w => c.executeWord w
    else { c with runState := .haltedNormal }
  else c

end Sys2Proof.Machine
end

