-- ==== Sys2Proof/Machine/Cycle.lean ====
section
/-!
DEFINITION. One clock cycle of the reference design with what the host drives in it, and runs of steps and of cycles
(70_reset_and_hazards R240, R242 to R246; 40_execution_cycle R142).
-/

namespace Sys2Proof.Machine

/-- The inputs of one clock cycle: the reset line and at most one host operation (notes/assumptions/6.md). -/
structure HostInput where
  rst : Bool
  op : Option HostOp
deriving DecidableEq, Repr

/-- One clock cycle. Reset takes priority over every other event (70 R240). In IDLE the host's operation commits and
no step happens, so after START the first step is in the next cycle (70 R245). In every other state the operation
has no effect (10_state R40, 20_memory R61) and the step of the state happens (40 R142). -/
def cycle (inp : HostInput) (s : State) : Host.Outcome State Fault Refusal :=
  if inp.rst then .next (State.resetOf s.cfg)
  else match s.core.runState, inp.op with
    | .idle, some op => s.advance (s.core.applyOp op)
    | _, _ => step s

/-- Cycles with the given inputs, stopping at a fault or a refusal. -/
def cycles : List HostInput → State → Host.Outcome State Fault Refusal
  | [], s => .next s
  | inp :: rest, s =>
    match cycle inp s with
    | .next t => cycles rest t
    | .fault f => .fault f
    | .refused r => .refused r

/-- STATE is HALTED_NORMAL, HALTED_CAPPED or FAULTED: the run has ended (40_execution_cycle R136, R141). -/
def RunState.terminal : RunState → Bool
  | .idle => false
  | .running => false
  | .haltedNormal => true
  | .haltedCapped => true
  | .faulted => true

/-- `n` steps, stopping at a fault or a refusal. -/
def steps : Nat → State → Host.Outcome State Fault Refusal
  | 0, s => .next s
  | n + 1, s =>
    match step s with
    | .next t => steps n t
    | .fault f => .fault f
    | .refused r => .refused r

/-- What `n` steps of a run yield (40_execution_cycle R141, 93_implementation_defined I12): the state at the end of
the run, or none when the run has not ended within `n` steps. -/
def runFor (n : Nat) (s : State) : Option State :=
  match steps n s with
  | .next t => if t.core.runState.terminal then some t else none
  | .fault _ => none
  | .refused _ => none

end Sys2Proof.Machine
end

