-- ==== Sys2Proof/Machine/Loader.lean ====
section
/-!
DEFINITION. Program text: its grammar and load-time validation, the loading of a program into the core, and the
disassembler (30_encoding R82 to R90, R102, R105; 60_exceptions R201 to R208, R218; 70_reset_and_hazards R242, R243).

A text is a list of characters (notes/assumptions/10.md).
-/

namespace Sys2Proof.Machine

/-! ### Lines and tokens (30_encoding R82, R85) -/

/-- Whitespace: space and horizontal tab (R82). -/
def isBlankChar (ch : Char) : Bool := ch = ' ' || ch = '\t'

/-- A line is blank when it is empty or holds only whitespace (R82). -/
def isBlankLine (line : List Char) : Bool := line.all isBlankChar

/-- Drops the CR that stands last, in a line held in reverse (R82). -/
def dropCr : List Char → List Char
  | [] => []
  | ch :: rest => if ch = '\r' then rest else ch :: rest

/-- The lines of a text, `cur` being the part of the current line already read, in reverse: LF ends a line, and a CR
immediately before the LF is removed (R82). -/
def linesFrom (cur : List Char) : List Char → List (List Char)
  | [] => [cur.reverse]
  | ch :: rest =>
    if ch = '\n' then (dropCr cur).reverse :: linesFrom [] rest
    else linesFrom (ch :: cur) rest

/-- The tokens of a line, the maximal runs of characters that are no whitespace, `cur` being the part of the current
token already read, in reverse (R85). -/
def tokensFrom (cur : List Char) : List Char → List (List Char)
  | [] => if cur.isEmpty then [] else [cur.reverse]
  | ch :: rest =>
    if isBlankChar ch then
      if cur.isEmpty then tokensFrom [] rest else cur.reverse :: tokensFrom [] rest
    else tokensFrom (ch :: cur) rest

/-! ### Literals and mnemonics (30_encoding R86, R87) -/

/-- The value of an ASCII digit. -/
def digitValue (ch : Char) : Option Nat :=
  if 48 ≤ ch.toNat ∧ ch.toNat ≤ 57 then some (ch.toNat - 48) else none

/-- The value of `acc` followed by the given decimal digits, none when a character is no digit. -/
def digitsFrom (acc : Nat) : List Char → Option Nat
  | [] => some acc
  | ch :: rest =>
    match digitValue ch with
    | none => none
    | some d => digitsFrom (10 * acc + d) rest

/-- The value of a token that matches `[0-9]+`. -/
def naturalOf (tok : List Char) : Option Nat := if tok.isEmpty then none else digitsFrom 0 tok

/-- The value of a token that matches `-?[0-9]+` (R87). -/
def integerOf : List Char → Option Int
  | '-' :: rest =>
    match naturalOf rest with
    | some n => some (-(n : Int))
    | none => none
  | tok =>
    match naturalOf tok with
    | some n => some (n : Int)
    | none => none

/-- The value of an operand token in the W-bit signed range (R87). -/
def literalOf (cfg : Config) (tok : List Char) : Option Int :=
  match integerOf tok with
  | some n => if isLiteral cfg n then some n else none
  | none => none

/-- The mnemonics in the order of their opcode numbers (30_encoding R94). -/
def mnemonicTable : List (List Char) :=
  [['a', 'd', 'd', 'r'], ['a', 'd', 'd', 'i'], ['m', 'u', 'l', 'r'], ['m', 'u', 'l', 'i'],
   ['b', 'a', 'n', 'r'], ['b', 'a', 'n', 'i'], ['b', 'o', 'r', 'r'], ['b', 'o', 'r', 'i'],
   ['s', 'e', 't', 'r'], ['s', 'e', 't', 'i'], ['g', 't', 'i', 'r'], ['g', 't', 'r', 'i'],
   ['g', 't', 'r', 'r'], ['e', 'q', 'i', 'r'], ['e', 'q', 'r', 'i'], ['e', 'q', 'r', 'r']]

/-- The opcode number of a token that is exactly one of the 16 mnemonics (R86). -/
def opcodeOfMnemonic (tok : List Char) : Option (BitVec 4) :=
  (mnemonicTable.idxOf? tok).map fun n => BitVec.ofNat 4 n

/-! ### Instruction lines (30_encoding R85 to R90) -/

/-- The instruction on the instruction line at position `pos`, or its first load error, in the order of R90: mnemonic,
token count, integers and their range, program length, register range. -/
def instrOfLine (cfg : Config) (pos : Nat) (line : List Char) : Except LoadError Instr :=
  match tokensFrom [] line with
  | [] => .error .unknownMnemonic
  | m :: operands =>
    match opcodeOfMnemonic m with
    | none => .error .unknownMnemonic
    | some op =>
      match operands with
      | [ta, tb, tc] =>
        match literalOf cfg ta, literalOf cfg tb, literalOf cfg tc with
        | some a, some b, some c =>
          if cfg.MAXPROG ≤ pos then .error .programTooLong
          else if (instrOfOpcode op a b c).registersValid cfg then .ok (instrOfOpcode op a b c)
          else .error .operandOutOfRange
        | _, _, _ => .error .badInteger
      | _ => .error .badTokenCount

/-- A load error and the number of the line it was found on, lines numbered from 1 (R82, R90). -/
structure LoadFailure where
  error : LoadError
  line : Nat
deriving DecidableEq, Repr

/-- The instructions of the given lines, the first of them being line `lineNo` and the next position `pos`; blank lines
are skipped and occupy no position (R85). The first failure ends the load (R90). -/
def codeOfLines (cfg : Config) (pos lineNo : Nat) : List (List Char) → Except LoadFailure (List Instr)
  | [] => .ok []
  | line :: rest =>
    if isBlankLine line then codeOfLines cfg pos (lineNo + 1) rest
    else
      match instrOfLine cfg pos line with
      | .error e => .error ⟨e, lineNo⟩
      | .ok i =>
        match codeOfLines cfg (pos + 1) (lineNo + 1) rest with
        | .error f => .error f
        | .ok code => .ok (i :: code)

/-! ### The directive line (30_encoding R83, R84) -/

/-- IP_PREFIX, the 3-character marker of a directive line: a parameter of the loader (93_implementation_defined I2). -/
structure IpMarker where
  first : Char
  second : Char
  third : Char
deriving DecidableEq, Repr

/-- The marker `#ip` (30_encoding R83; notes/assumptions/11.md). -/
def IpMarker.standard : IpMarker := ⟨'#', 'i', 'p'⟩

/-- What follows the marker on a line that begins with it (R83). -/
def afterMarker (mk : IpMarker) : List Char → Option (List Char)
  | c1 :: c2 :: c3 :: rest =>
    if c1 = mk.first ∧ c2 = mk.second ∧ c3 = mk.third then some rest else none
  | _ => none

/-- The digit of a well-formed directive line, given what follows the marker: one or more whitespace characters, one
ASCII digit, then only whitespace (R83). -/
def directiveDigit : List Char → Option Nat
  | [] => none
  | ch :: rest =>
    if isBlankChar ch then
      match rest.dropWhile isBlankChar with
      | [] => none
      | d :: tail => if isBlankLine tail then digitValue d else none
    else none

/-! ### A whole text (30_encoding R90) -/

/-- A program as the loader yields it: the ip index and the sequence of instructions (R90). -/
structure Program where
  ip : Nat
  code : List Instr
deriving DecidableEq, Repr

/-- The program with the given ip index and the instructions of the given lines, the first of them line `lineNo`. -/
def programOfLines (cfg : Config) (ip lineNo : Nat) (lines : List (List Char)) : Except LoadFailure Program :=
  match codeOfLines cfg 0 lineNo lines with
  | .error f => .error f
  | .ok code => .ok ⟨ip, code⟩

/-- The text loader: the directive on line 1 if there is one, else IP_DEFAULT, then the instruction lines (R83 to
R90). -/
def loadText (cfg : Config) (mk : IpMarker) (text : List Char) : Except LoadFailure Program :=
  match linesFrom [] text with
  | [] => .ok ⟨(ipDefault cfg).val, []⟩
  | line :: rest =>
    match afterMarker mk line with
    | none => programOfLines cfg (ipDefault cfg).val 1 (line :: rest)
    | some tail =>
      match directiveDigit tail with
      | none => .error ⟨.badIpDirective, 1⟩
      | some d => if d < cfg.NREG then programOfLines cfg d 2 rest else .error ⟨.badIpDirective, 1⟩

/-! ### Loading into the core (70_reset_and_hazards R242, R243) -/

/-- The load-port writes of a code sequence from position `pos` on: the word of each instruction at its position. -/
def codeOps (cfg : Config) (pos : Nat) : List Instr → List HostOp
  | [] => []
  | i :: rest => .imemWrite pos (encode cfg i).toNat :: codeOps cfg (pos + 1) rest

/-- The host's writes that load a program: IPSEL, the words, PLEN (R243; notes/assumptions/15.md). -/
def Program.loadOps (cfg : Config) (p : Program) : List HostOp :=
  .csrWrite 1 p.ip :: (codeOps cfg 0 p.code ++ [.csrWrite 2 p.code.length])

/-- The core after reset, load, the iteration cap `set_iteration_cap(cap)` and START (R242); none when the host
refuses the cap. -/
def boot (cfg : Config) (p : Program) (cap : Int) : Option (CoreState cfg) :=
  match setIterationCap cap with
  | none => none
  | some capOps => some ((CoreState.reset cfg).applyOps (p.loadOps cfg ++ capOps ++ [startOp]))

/-! ### The disassembler (30_encoding R102) -/

/-- A number in decimal, a minus sign in front of a negative one. -/
def decimalOf (n : Int) : List Char :=
  if n < 0 then '-' :: Nat.toDigits 10 n.natAbs else Nat.toDigits 10 n.natAbs

/-- An instruction in assembler syntax, single spaces between its four tokens (R102). -/
def textOf (i : Instr) : List Char :=
  mnemonicTable.getD i.opcode.toNat [] ++ ' ' :: (decimalOf i.operands.1 ++ ' ' :: (decimalOf i.operands.2.1 ++
    ' ' :: decimalOf i.operands.2.2))

/-- The disassembler: the text of a legal word (R102). -/
def disassemble (cfg : Config) (w : InstrWord cfg) : Option (List Char) :=
  match decode cfg w with
  | .ok i => some (textOf i)
  | .error _ => none

end Sys2Proof.Machine
end

