-- ==== Sys2Proof/Safety.lean ====
section
/-!
DEFINITION. The terms that claims about the core use: what an executed instruction and a faulting step leave, written
from the rules for the committed state rather than from the step; the invariant of the core; and what a loaded program
is.
-/

namespace Sys2Proof.Machine

/-- The registers after an instruction with target k and result v has executed, by the three cases of 10_state R36:
the ip register one past its bypassed value, the target the result, every other register as it was. -/
def CoreState.regsAfter {cfg : Config} (s : CoreState cfg) (k : Fin cfg.NREG) (v : Word cfg.W) :
    Vector (Word cfg.W) cfg.NREG :=
  Vector.ofFn fun i =>
    if i = s.ipsel then (if k = s.ipsel then v else s.x[s.ipsel]) + BitVec.ofNat cfg.W 1
    else if i = k then v
    else s.x[i]

/-- The core after an instruction with target k and result v has executed: the registers of R36, ITER one more
(modulo 2^CW), STATE HALTED_CAPPED when the cap is in force and ITER has reached it, and every other component as it
was (40_execution_cycle R121, R128). -/
def CoreState.afterExecuting {cfg : Config} (s : CoreState cfg) (k : Fin cfg.NREG) (v : Word cfg.W) :
    CoreState cfg :=
  { s with
    x := s.regsAfter k v
    iter := s.iter + 1
    runState := if s.capEn = true ∧ s.capN ≠ 0 ∧ s.iter + 1 = s.capN then .haltedCapped else s.runState }

/-- The core after fault entry with a code: STATE, FAULT_CODE and FAULT_PC, nothing else (60_exceptions R212). -/
def CoreState.afterFault {cfg : Config} (s : CoreState cfg) (code : BitVec 4) : CoreState cfg :=
  { s with runState := .faulted, faultCode := code, faultPc := s.x[s.ipsel] }

/-- The word of instruction i has OP = op, reserved bits 0, and the lanes bv_W(a), bv_W(b), bv_W(c) (30_encoding
R92, R105). -/
def EncodedAs (cfg : Config) (i : Instr) (op : Nat) (a b c : Int) : Prop :=
  opl cfg (encode cfg i) = BitVec.ofNat cfg.W op ∧ laneA cfg (encode cfg i) = bv cfg.W a ∧
  laneB cfg (encode cfg i) = bv cfg.W b ∧ laneC cfg (encode cfg i) = bv cfg.W c

/-- The cap is in force: CAP.EN = 1 and CAP.N ≠ 0 (10_state R44). -/
def CoreState.CapSet {cfg : Config} (s : CoreState cfg) : Prop := s.capEn = true ∧ s.capN ≠ 0

/-- The invariant of the core: every step and every host operation keeps it, and reset has it. -/
structure CoreState.Inv {cfg : Config} (s : CoreState cfg) : Prop where
  /-- The instruction memory is in canonical form, within [0, MAXPROG) (20_memory R61). -/
  imemCanonical : Memory.wf cfg.MAXPROG s.imem = true
  /-- FAULT_CODE is 0 unless STATE = FAULTED, and names a cause when it is (10_state R43). -/
  faultCodeIff : s.runState = .faulted ↔ s.faultCode ≠ 0
  /-- The FAULT_CODE values 4 to 15 are never produced (60_exceptions R213). -/
  faultCodeKnown : s.faultCode.toNat ≤ 3
  /-- FAULT_PC is written only on fault entry (10_state R46). -/
  faultPcZero : s.runState ≠ .faulted → s.faultPc = 0
  /-- LOAD_CODE is 0 when LOAD_ERR = 0 (10_state R43). -/
  loadCodeIff : s.loadErr = true ↔ s.loadCode ≠ 0
  /-- The core records only the load errors that the core finds (60_exceptions R201). -/
  loadCodeKnown : s.loadCode ∈ ([0, 4, 6, 7, 8, 9] : List (BitVec 4))
  /-- With a load error the core never leaves IDLE (60_exceptions R200). -/
  loadErrIdle : s.loadErr = true → s.runState = .idle
  /-- Before a run every register and ITER are 0 (70_reset_and_hazards R245, R248). -/
  idleFresh : s.runState = .idle → (∀ i : Fin cfg.NREG, s.x[i] = 0) ∧ s.iter = 0
  /-- With the cap in force a running core has not reached it (10_state R45). -/
  capRunning : s.runState = .running → s.CapSet → s.iter.toNat < s.capN.toNat
  /-- HALTED_CAPPED only with the cap in force and reached (40_execution_cycle R128). -/
  capReached : s.runState = .haltedCapped → s.CapSet ∧ s.iter = s.capN

/-- A core whose instruction memory was filled through the checked load port and whose run, if any, began with a
successful START (60_exceptions R214). -/
structure CoreState.Loaded {cfg : Config} (s : CoreState cfg) : Prop where
  /-- Every stored word is a legal instruction (30_encoding R104). -/
  wordsLegal : ∀ p w, Memory.read s.imem p = some w → ∃ i, decode cfg w = .ok i
  /-- Outside IDLE every position below PLEN holds a word (60_exceptions R210). -/
  complete : s.runState ≠ .idle → ∀ p, p < s.plen.val → ∃ w, Memory.read s.imem p = some w
  /-- No fault has been raised. -/
  notFaulted : s.runState ≠ .faulted

end Sys2Proof.Machine
end

