-- ==== Sys2Proof/Certificates/Slice0/Obligations.lean ====
section
/-!
DEFINITION. The statements for the provers: what the numbered rules of spec/ say of the core, for every configuration
(W, NREG, MAXPROG) and every state.

The right sides use the terms of Sys2Proof/Safety.lean, which are written from the rules for the committed state.
-/

open Sys2Proof Sys2Proof.Machine

/-- Decoding the word of a well-formed instruction gives back the instruction (30_encoding.md R92 to R99).

The spec marks this as its own inference: 30_encoding R105 and R106, derived from R92 to R99. -/
def Obligations.DecodeOfEncodeIsTheInstruction : Prop :=
  ∀ (cfg : Config) (i : Instr), i.wellFormed cfg = true → decode cfg (encode cfg i) = .ok i

/-- A word that decodes is the word of the instruction it decodes to, and that instruction is well formed
(30_encoding.md R92 to R100).

The spec marks this as its own inference: 30_encoding R106, derived from R92 to R99. -/
def Obligations.EncodeOfDecodeIsTheWord : Prop :=
  ∀ (cfg : Config) (w : InstrWord cfg) (i : Instr),
    decode cfg w = .ok i → encode cfg i = w ∧ i.wellFormed cfg = true

/-- The decoder refuses a word exactly when a reserved bit is set or a register operand is invalid, in that order
(30_encoding.md R99, 30_encoding.md R94, 30_encoding.md R98).

That every word is exactly one of legal and illegal is the spec's own inference: 30_encoding R106, derived from R92 to
R99. -/
def Obligations.DecoderRefusesExactlyTheIllegalWords : Prop :=
  ∀ (cfg : Config) (w : InstrWord cfg),
    (decode cfg w = .error .reservedBits ↔ 16 ≤ (opl cfg w).toNat) ∧
    (decode cfg w = .error .regIndex ↔
      (opl cfg w).toNat < 16 ∧
      (((semanticTable (opcodeOf cfg w)).2.1 = .reg ∧
          ¬(0 ≤ (laneA cfg w).toInt ∧ (laneA cfg w).toInt < cfg.NREG)) ∨
        ((semanticTable (opcodeOf cfg w)).2.2 = .reg ∧
          ¬(0 ≤ (laneB cfg w).toInt ∧ (laneB cfg w).toInt < cfg.NREG)) ∨
        ¬(0 ≤ (laneC cfg w).toInt ∧ (laneC cfg w).toInt < cfg.NREG)))

/-- Sample words of the spec, one of each family and two illegal ones, decode as the spec says (95_test_vectors.md
section 3d, 95_test_vectors.md section 3a, 30_encoding.md R92 to R94). -/
def Obligations.SampleWordsDecodeAsTheSpecEncodes : Prop :=
  decode Config.reference (BitVec.ofNat _ 0x00000001FFFFFFFF0000000100000001) = .ok (.addi 1 (-1) 1) ∧
  decode Config.reference (BitVec.ofNat _ 0x00000003FFFFFF000000000000000007) = .ok (.bori 0 (-256) 3) ∧
  decode Config.reference (BitVec.ofNat _ 0x00000002FFFFFFF90000000200000008) = .ok (.setr 2 (-7) 2) ∧
  decode Config.reference (BitVec.ofNat _ 0x0000000000000005800000000000000A) = .ok (.gtir (-2147483648) 5 0) ∧
  decode Config.reference (BitVec.ofNat _ 0x0000000300000004000000050000000F) = .ok (.eqrr 5 4 3) ∧
  decode Config.reference (BitVec.ofNat _ 0x0000000000000000000000000000001F) = .error .reservedBits ∧
  decode Config.reference (BitVec.ofNat _ 0x00000000000000000000000600000000) = .error .regIndex

/-- An accepted instruction line encodes as OP, zero reserved bits, and its three literals in lanes A, B, C
(30_encoding.md R92 to R94, 30_encoding.md R85 to R89).

That a loaded instruction encodes so is the spec's own inference: 30_encoding R105, derived from R87, R92, R94.
Characters that the grammar does not name are the model's choice (notes/assumptions/10.md). -/
def Obligations.InstructionLineEncodesLaneByLane : Prop :=
  ∀ (cfg : Config) (pos : Nat) (line : List Char) (i : Instr), instrOfLine cfg pos line = .ok i →
    ∃ (m ta tb tc : List Char) (op : BitVec 4) (a b c : Int),
      tokensFrom [] line = [m, ta, tb, tc] ∧ opcodeOfMnemonic m = some op ∧
      literalOf cfg ta = some a ∧ literalOf cfg tb = some b ∧ literalOf cfg tc = some c ∧
      EncodedAs cfg i op.toNat a b c

/-- A word moved as bytes, byte k holding bits [8k+7:8k], is the word again (20_memory.md R65).

When 4W is no multiple of 8 the number of bytes and the spare bits of the last byte are the model's choice
(notes/assumptions/13.md). -/
def Obligations.TransferBytesGiveTheWordBack : Prop :=
  ∀ (cfg : Config) (w : InstrWord cfg),
    (wordToBytes cfg w).length = bytesPerWord cfg ∧ 4 * cfg.W ≤ 8 * bytesPerWord cfg ∧
    (∀ k j, k < bytesPerWord cfg → j < 8 →
      ((wordToBytes cfg w)[k]?.map fun b => b.getLsbD j) = some (w.getLsbD (8 * k + j))) ∧
    wordOfBytes cfg (wordToBytes cfg w) = w

/-- ADD and MUL wrap modulo 2^W, agree for signed and unsigned inputs, and have the exact results of the sign corners
(R150). -/
def Obligations.AddAndMultiplyWrapModuloTwoToTheW : Prop :=
  ∀ w : Nat, 8 ≤ w → ∀ p q : Word w,
    fnAdd w p q = BitVec.ofNat w (p.toNat + q.toNat) ∧ fnAdd w p q = bv w (p.toInt + q.toInt) ∧
    fnMul w p q = BitVec.ofNat w (p.toNat * q.toNat) ∧ fnMul w p q = bv w (p.toInt * q.toInt) ∧
    fnMul w p 0 = 0 ∧ fnMul w 0 q = 0 ∧
    (∀ m n : Int, 0 < m → 0 < n → m * n < 2 ^ (w - 1) →
      fnMul w (bv w (-m)) (bv w n) = bv w (-(m * n)) ∧ fnMul w (bv w m) (bv w (-n)) = bv w (-(m * n)) ∧
      fnMul w (bv w (-m)) (bv w (-n)) = bv w (m * n)) ∧
    fnMul w (bv w (-2 ^ (w - 1))) (bv w (-1)) = bv w (-2 ^ (w - 1)) ∧
    fnAdd w (bv w (2 ^ (w - 1) - 1)) (bv w 1) = bv w (-2 ^ (w - 1)) ∧
    fnAdd w (bv w (-2 ^ (w - 1))) (bv w (-1)) = bv w (2 ^ (w - 1) - 1)

/-- AND and OR act bit by bit on the two's-complement patterns (R160). -/
def Obligations.AndAndOrActOnBitPatterns : Prop :=
  ∀ w : Nat, 8 ≤ w → ∀ p q : Word w,
    (∀ i, i < w → (fnAnd w p q).getLsbD i = (p.getLsbD i && q.getLsbD i)) ∧
    (∀ i, i < w → (fnOr w p q).getLsbD i = (p.getLsbD i || q.getLsbD i)) ∧
    fnAnd w p (bv w (-1)) = p ∧
    ((fnAnd w p q).toInt < 0 ↔ (fnAnd w p q).getLsbD (w - 1) = true) ∧
    ((fnOr w p q).toInt < 0 ↔ (fnOr w p q).getLsbD (w - 1) = true)

/-- GT compares signed values, EQ bit patterns; the result is exactly 0 or 1 (R180). -/
def Obligations.ComparisonsGiveZeroOrOne : Prop :=
  ∀ w : Nat, 8 ≤ w → ∀ p q : Word w,
    (p.toInt > q.toInt → fnGt w p q = bv w 1) ∧ (¬p.toInt > q.toInt → fnGt w p q = bv w 0) ∧
    (p = q → fnEq w p q = bv w 1) ∧ (p ≠ q → fnEq w p q = bv w 0) ∧
    (p = q ↔ p.toInt = q.toInt) ∧ fnGt w p p = bv w 0 ∧ fnGt w (bv w (-1)) (bv w 1) = bv w 0 ∧
    bv w 1 ≠ bv w 0

/-- addr writes x[a] + x[b] modulo 2^W to x[c] (R151). -/
def Obligations.AddrAddsTwoRegisters : Prop :=
  ∀ (cfg : Config) (s : CoreState cfg),
    (∀ (a b c : Fin cfg.NREG),
      exec (.addr a.val b.val c.val) ⟨cfg, s⟩ = .next ⟨cfg, s.afterExecuting c
        (bv cfg.W (s.x[a].toInt + s.x[b].toInt))⟩) ∧
    (∀ a b c : Int, (isRegister cfg a && isRegister cfg b && isRegister cfg c) = false →
      exec (.addr a b c) ⟨cfg, s⟩ = .next ⟨cfg, s.afterFault 2⟩) ∧
    (∀ a b c : Int, EncodedAs cfg (.addr a b c) 0 a b c)

/-- addi writes x[a] + b modulo 2^W to x[c] (R152). -/
def Obligations.AddiAddsAnImmediate : Prop :=
  ∀ (cfg : Config) (s : CoreState cfg),
    (∀ (a c : Fin cfg.NREG) (b : Int),
      exec (.addi a.val b c.val) ⟨cfg, s⟩ = .next ⟨cfg, s.afterExecuting c
        (bv cfg.W (s.x[a].toInt + b))⟩) ∧
    (∀ a b c : Int, (isRegister cfg a && isRegister cfg c) = false →
      exec (.addi a b c) ⟨cfg, s⟩ = .next ⟨cfg, s.afterFault 2⟩) ∧
    (∀ a b c : Int, EncodedAs cfg (.addi a b c) 1 a b c)

/-- mulr writes the low W bits of x[a] * x[b] to x[c] (R153). -/
def Obligations.MulrMultipliesTwoRegisters : Prop :=
  ∀ (cfg : Config) (s : CoreState cfg),
    (∀ (a b c : Fin cfg.NREG),
      exec (.mulr a.val b.val c.val) ⟨cfg, s⟩ = .next ⟨cfg, s.afterExecuting c
        (bv cfg.W (s.x[a].toInt * s.x[b].toInt))⟩) ∧
    (∀ a b c : Int, (isRegister cfg a && isRegister cfg b && isRegister cfg c) = false →
      exec (.mulr a b c) ⟨cfg, s⟩ = .next ⟨cfg, s.afterFault 2⟩) ∧
    (∀ a b c : Int, EncodedAs cfg (.mulr a b c) 2 a b c)

/-- muli writes the low W bits of x[a] * b to x[c] (R154). -/
def Obligations.MuliMultipliesByAnImmediate : Prop :=
  ∀ (cfg : Config) (s : CoreState cfg),
    (∀ (a c : Fin cfg.NREG) (b : Int),
      exec (.muli a.val b c.val) ⟨cfg, s⟩ = .next ⟨cfg, s.afterExecuting c
        (bv cfg.W (s.x[a].toInt * b))⟩) ∧
    (∀ a b c : Int, (isRegister cfg a && isRegister cfg c) = false →
      exec (.muli a b c) ⟨cfg, s⟩ = .next ⟨cfg, s.afterFault 2⟩) ∧
    (∀ a b c : Int, EncodedAs cfg (.muli a b c) 3 a b c)

/-- banr writes the bitwise AND of x[a] and x[b] to x[c] (R161). -/
def Obligations.BanrAndsTwoRegisters : Prop :=
  ∀ (cfg : Config) (s : CoreState cfg),
    (∀ (a b c : Fin cfg.NREG),
      exec (.banr a.val b.val c.val) ⟨cfg, s⟩ = .next ⟨cfg, s.afterExecuting c
        (s.x[a] &&& s.x[b])⟩) ∧
    (∀ a b c : Int, (isRegister cfg a && isRegister cfg b && isRegister cfg c) = false →
      exec (.banr a b c) ⟨cfg, s⟩ = .next ⟨cfg, s.afterFault 2⟩) ∧
    (∀ a b c : Int, EncodedAs cfg (.banr a b c) 4 a b c)

/-- bani writes the bitwise AND of x[a] and the immediate to x[c] (R162). -/
def Obligations.BaniAndsAnImmediate : Prop :=
  ∀ (cfg : Config) (s : CoreState cfg),
    (∀ (a c : Fin cfg.NREG) (b : Int),
      exec (.bani a.val b c.val) ⟨cfg, s⟩ = .next ⟨cfg, s.afterExecuting c
        (s.x[a] &&& bv cfg.W b)⟩) ∧
    (∀ a b c : Int, (isRegister cfg a && isRegister cfg c) = false →
      exec (.bani a b c) ⟨cfg, s⟩ = .next ⟨cfg, s.afterFault 2⟩) ∧
    (∀ a b c : Int, EncodedAs cfg (.bani a b c) 5 a b c)

/-- borr writes the bitwise OR of x[a] and x[b] to x[c] (R163). -/
def Obligations.BorrOrsTwoRegisters : Prop :=
  ∀ (cfg : Config) (s : CoreState cfg),
    (∀ (a b c : Fin cfg.NREG),
      exec (.borr a.val b.val c.val) ⟨cfg, s⟩ = .next ⟨cfg, s.afterExecuting c
        (s.x[a] ||| s.x[b])⟩) ∧
    (∀ a b c : Int, (isRegister cfg a && isRegister cfg b && isRegister cfg c) = false →
      exec (.borr a b c) ⟨cfg, s⟩ = .next ⟨cfg, s.afterFault 2⟩) ∧
    (∀ a b c : Int, EncodedAs cfg (.borr a b c) 6 a b c)

/-- bori writes the bitwise OR of x[a] and the immediate to x[c] (R164). -/
def Obligations.BoriOrsAnImmediate : Prop :=
  ∀ (cfg : Config) (s : CoreState cfg),
    (∀ (a c : Fin cfg.NREG) (b : Int),
      exec (.bori a.val b c.val) ⟨cfg, s⟩ = .next ⟨cfg, s.afterExecuting c
        (s.x[a] ||| bv cfg.W b)⟩) ∧
    (∀ a b c : Int, (isRegister cfg a && isRegister cfg c) = false →
      exec (.bori a b c) ⟨cfg, s⟩ = .next ⟨cfg, s.afterFault 2⟩) ∧
    (∀ a b c : Int, EncodedAs cfg (.bori a b c) 7 a b c)

/-- setr writes x[a] to x[c]; b has no effect (R171). -/
def Obligations.SetrCopiesARegister : Prop :=
  ∀ (cfg : Config) (s : CoreState cfg),
    (∀ (a c : Fin cfg.NREG) (b : Int),
      exec (.setr a.val b c.val) ⟨cfg, s⟩ = .next ⟨cfg, s.afterExecuting c
        (s.x[a])⟩) ∧
    (∀ a b c : Int, (isRegister cfg a && isRegister cfg c) = false →
      exec (.setr a b c) ⟨cfg, s⟩ = .next ⟨cfg, s.afterFault 2⟩) ∧
    (∀ a b c : Int, EncodedAs cfg (.setr a b c) 8 a b c)

/-- seti writes the immediate a to x[c]; b has no effect (R172). -/
def Obligations.SetiLoadsAnImmediate : Prop :=
  ∀ (cfg : Config) (s : CoreState cfg),
    (∀ (c : Fin cfg.NREG) (a b : Int),
      exec (.seti a b c.val) ⟨cfg, s⟩ = .next ⟨cfg, s.afterExecuting c
        (bv cfg.W a)⟩) ∧
    (∀ a b c : Int, isRegister cfg c = false →
      exec (.seti a b c) ⟨cfg, s⟩ = .next ⟨cfg, s.afterFault 2⟩) ∧
    (∀ a b c : Int, EncodedAs cfg (.seti a b c) 9 a b c)

/-- gtir writes 1 to x[c] when the immediate is greater than x[b] as signed values, else 0 (R181). -/
def Obligations.GtirComparesImmediateWithRegister : Prop :=
  ∀ (cfg : Config) (s : CoreState cfg),
    (∀ (b c : Fin cfg.NREG) (a : Int),
      exec (.gtir a b.val c.val) ⟨cfg, s⟩ = .next ⟨cfg, s.afterExecuting c
        (if (bv cfg.W a).toInt > s.x[b].toInt then bv cfg.W 1 else bv cfg.W 0)⟩) ∧
    (∀ a b c : Int, (isRegister cfg b && isRegister cfg c) = false →
      exec (.gtir a b c) ⟨cfg, s⟩ = .next ⟨cfg, s.afterFault 2⟩) ∧
    (∀ a b c : Int, EncodedAs cfg (.gtir a b c) 10 a b c)

/-- gtri writes 1 to x[c] when x[a] is greater than the immediate as signed values, else 0 (R182). -/
def Obligations.GtriComparesRegisterWithImmediate : Prop :=
  ∀ (cfg : Config) (s : CoreState cfg),
    (∀ (a c : Fin cfg.NREG) (b : Int),
      exec (.gtri a.val b c.val) ⟨cfg, s⟩ = .next ⟨cfg, s.afterExecuting c
        (if s.x[a].toInt > (bv cfg.W b).toInt then bv cfg.W 1 else bv cfg.W 0)⟩) ∧
    (∀ a b c : Int, (isRegister cfg a && isRegister cfg c) = false →
      exec (.gtri a b c) ⟨cfg, s⟩ = .next ⟨cfg, s.afterFault 2⟩) ∧
    (∀ a b c : Int, EncodedAs cfg (.gtri a b c) 11 a b c)

/-- gtrr writes 1 to x[c] when x[a] is greater than x[b] as signed values, else 0 (R183). -/
def Obligations.GtrrComparesTwoRegisters : Prop :=
  ∀ (cfg : Config) (s : CoreState cfg),
    (∀ (a b c : Fin cfg.NREG),
      exec (.gtrr a.val b.val c.val) ⟨cfg, s⟩ = .next ⟨cfg, s.afterExecuting c
        (if s.x[a].toInt > s.x[b].toInt then bv cfg.W 1 else bv cfg.W 0)⟩) ∧
    (∀ a b c : Int, (isRegister cfg a && isRegister cfg b && isRegister cfg c) = false →
      exec (.gtrr a b c) ⟨cfg, s⟩ = .next ⟨cfg, s.afterFault 2⟩) ∧
    (∀ a b c : Int, EncodedAs cfg (.gtrr a b c) 12 a b c)

/-- eqir writes 1 to x[c] when the immediate equals x[b], else 0 (R184). -/
def Obligations.EqirTestsImmediateAgainstRegister : Prop :=
  ∀ (cfg : Config) (s : CoreState cfg),
    (∀ (b c : Fin cfg.NREG) (a : Int),
      exec (.eqir a b.val c.val) ⟨cfg, s⟩ = .next ⟨cfg, s.afterExecuting c
        (if (bv cfg.W a).toInt = s.x[b].toInt then bv cfg.W 1 else bv cfg.W 0)⟩) ∧
    (∀ a b c : Int, (isRegister cfg b && isRegister cfg c) = false →
      exec (.eqir a b c) ⟨cfg, s⟩ = .next ⟨cfg, s.afterFault 2⟩) ∧
    (∀ a b c : Int, EncodedAs cfg (.eqir a b c) 13 a b c)

/-- eqri writes 1 to x[c] when x[a] equals the immediate, else 0 (R185). -/
def Obligations.EqriTestsRegisterAgainstImmediate : Prop :=
  ∀ (cfg : Config) (s : CoreState cfg),
    (∀ (a c : Fin cfg.NREG) (b : Int),
      exec (.eqri a.val b c.val) ⟨cfg, s⟩ = .next ⟨cfg, s.afterExecuting c
        (if s.x[a].toInt = (bv cfg.W b).toInt then bv cfg.W 1 else bv cfg.W 0)⟩) ∧
    (∀ a b c : Int, (isRegister cfg a && isRegister cfg c) = false →
      exec (.eqri a b c) ⟨cfg, s⟩ = .next ⟨cfg, s.afterFault 2⟩) ∧
    (∀ a b c : Int, EncodedAs cfg (.eqri a b c) 14 a b c)

/-- eqrr writes 1 to x[c] when x[a] equals x[b], else 0 (R186). -/
def Obligations.EqrrTestsTwoRegisters : Prop :=
  ∀ (cfg : Config) (s : CoreState cfg),
    (∀ (a b c : Fin cfg.NREG),
      exec (.eqrr a.val b.val c.val) ⟨cfg, s⟩ = .next ⟨cfg, s.afterExecuting c
        (if s.x[a].toInt = s.x[b].toInt then bv cfg.W 1 else bv cfg.W 0)⟩) ∧
    (∀ a b c : Int, (isRegister cfg a && isRegister cfg b && isRegister cfg c) = false →
      exec (.eqrr a b c) ⟨cfg, s⟩ = .next ⟨cfg, s.afterFault 2⟩) ∧
    (∀ a b c : Int, EncodedAs cfg (.eqrr a b c) 15 a b c)

/-- Frame: every instruction with valid register operands completes and changes only x[c], the ip register, ITER and
STATE (10_state.md R23, R28, R35, 20_memory.md R64, 40_execution_cycle.md R121, R126 to R128).

That the opcodes reach nothing else is the spec's own inference: 10_state R48, derived from 30_encoding R94 and R23.
-/
def Obligations.ExecutedInstructionsChangeOnlyTargetIpAndCount : Prop :=
  ∀ (cfg : Config) (s : CoreState cfg) (i : Instr), i.registersValid cfg = true →
    ∃ (k : Fin cfg.NREG) (t : CoreState cfg),
      (k.val : Int) = i.operands.2.2 ∧ exec i ⟨cfg, s⟩ = .next ⟨cfg, t⟩ ∧
      (∀ r : Fin cfg.NREG, r ≠ k → r ≠ s.ipsel → t.x[r] = s.x[r]) ∧
      (∀ p : Nat, Memory.read t.imem p = Memory.read s.imem p) ∧
      t.ipsel = s.ipsel ∧ t.imem = s.imem ∧ t.plen = s.plen ∧ t.capEn = s.capEn ∧ t.capN = s.capN ∧
      t.loadErr = s.loadErr ∧ t.loadCode = s.loadCode ∧ t.faultCode = s.faultCode ∧ t.faultPc = s.faultPc ∧
      t.iter.toNat = (s.iter.toNat + 1) % 2 ^ CW ∧
      t.runState = if s.capEn = true ∧ s.capN ≠ 0 ∧ t.iter = s.capN then .haltedCapped else s.runState

/-- A step in RUNNING is exec of the decoded instruction, or the fault of the illegal word (40_execution_cycle.md
R121, R123, 30_encoding.md R99). -/
def Obligations.StepRunsTheDecodedInstruction : Prop :=
  ∀ (cfg : Config) (s : CoreState cfg) (w : InstrWord cfg),
    s.runState = .running → 0 ≤ s.x[s.ipsel].toInt → s.x[s.ipsel].toInt < s.plen.val →
    Memory.read s.imem s.x[s.ipsel].toNat = some w →
    (∀ i : Instr, decode cfg w = .ok i → step ⟨cfg, s⟩ = exec i ⟨cfg, s⟩) ∧
    (decode cfg w = .error .reservedBits → step ⟨cfg, s⟩ = .next ⟨cfg, s.afterFault 1⟩) ∧
    (decode cfg w = .error .regIndex → step ⟨cfg, s⟩ = .next ⟨cfg, s.afterFault 2⟩)

/-- Refinement: the reference datapath with its ports, bypass and one-edge commit performs exactly the architectural
step (10_state.md R31 to R38, 30_encoding.md R94 to R98, 40_execution_cycle.md R121, R142).

The answer of a step outside RUNNING, the same state, is the model's form of 'no step happens'
(notes/assumptions/3.md). -/
def Obligations.DatapathCycleIsTheStep : Prop :=
  ∀ s : State, step s = .next ⟨s.cfg, s.core.datapathCycle⟩

/-- Every step answers a next state and leaves IPSEL, IMEM, PLEN, the cap and the load error as they are (10_state.md
R20, R26, 20_memory.md R64, 40_execution_cycle.md R121, R140, R142).

The answer of a step outside RUNNING, the same state, is the model's form of 'no step happens', and a fault is a next
state (notes/assumptions/3.md, notes/assumptions/4.md). -/
def Obligations.StepsKeepProgramAndConfiguration : Prop :=
  ∀ (cfg : Config) (s : CoreState cfg), ∃ t : CoreState cfg, step ⟨cfg, s⟩ = .next ⟨cfg, t⟩ ∧
    t.ipsel = s.ipsel ∧ t.imem = s.imem ∧ t.plen = s.plen ∧ t.capEn = s.capEn ∧ t.capN = s.capN ∧
    t.loadErr = s.loadErr ∧ t.loadCode = s.loadCode

/-- The checks of a step are made in the order of R217, and the first match decides it (R217). -/
def Obligations.ChecksAreMadeInOrder : Prop :=
  ∀ (cfg : Config) (s : CoreState cfg), s.runState = .running →
    if ¬(0 ≤ s.x[s.ipsel].toInt ∧ s.x[s.ipsel].toInt < s.plen.val) then
      step ⟨cfg, s⟩ = .next ⟨cfg, { s with runState := .haltedNormal }⟩
    else
      match Memory.read s.imem s.x[s.ipsel].toNat with
      | none => step ⟨cfg, s⟩ = .next ⟨cfg, s.afterFault 3⟩
      | some w =>
        if reservedBits cfg w ≠ 0 then step ⟨cfg, s⟩ = .next ⟨cfg, s.afterFault 1⟩
        else if (semanticTable (opcodeOf cfg w)).2.1 = .reg ∧ isRegister cfg (laneA cfg w).toInt = false then
          step ⟨cfg, s⟩ = .next ⟨cfg, s.afterFault 2⟩
        else if (semanticTable (opcodeOf cfg w)).2.2 = .reg ∧ isRegister cfg (laneB cfg w).toInt = false then
          step ⟨cfg, s⟩ = .next ⟨cfg, s.afterFault 2⟩
        else if isRegister cfg (laneC cfg w).toInt = false then
          step ⟨cfg, s⟩ = .next ⟨cfg, s.afterFault 2⟩
        else
          ∃ (k : Fin cfg.NREG) (v : Word cfg.W), (k.val : Int) = (laneC cfg w).toInt ∧
            step ⟨cfg, s⟩ = .next ⟨cfg, s.afterExecuting k v⟩ ∧
            exec (instrOfOpcode (opcodeOf cfg w) (laneA cfg w).toInt (laneB cfg w).toInt (laneC cfg w).toInt)
              ⟨cfg, s⟩ = .next ⟨cfg, s.afterExecuting k v⟩

/-- A pc below 0 or at or past PLEN sets STATE to HALTED_NORMAL and changes nothing else (R122). -/
def Obligations.BoundsHaltChangesOnlyTheState : Prop :=
  ∀ (cfg : Config) (s : CoreState cfg), s.runState = .running →
    (s.x[s.ipsel].toInt < 0 ∨ (s.plen.val : Int) ≤ s.x[s.ipsel].toInt) →
    step ⟨cfg, s⟩ = .next ⟨cfg, { s with runState := .haltedNormal }⟩

/-- The signed bounds test and the unsigned one agree, because PLEN ≤ MAXPROG ≤ 2^(W-1) - 1 (20_memory.md R62,
00_scope.md R7).

The spec marks this as its own inference: 20_memory R63, 'the test `0 ≤ s(pc) < PLEN` is the same as the unsigned test
`u(pc) < PLEN`'. -/
def Obligations.BoundsTestMayBeUnsigned : Prop :=
  ∀ (cfg : Config) (pc : Word cfg.W) (plen : Fin (cfg.MAXPROG + 1)),
    ((0 ≤ pc.toInt ∧ pc.toInt < plen.val) ↔ pc.toNat < plen.val) ∧
    (pc.toInt < 0 → 2 ^ (cfg.W - 1) ≤ pc.toNat ∧ plen.val < 2 ^ (cfg.W - 1))

/-- Loading nothing and starting halts in HALTED_NORMAL with every register 0 and ITER 0 (R137). -/
def Obligations.EmptyProgramHaltsAtOnce : Prop :=
  ∀ cfg : Config,
    cycles [⟨false, some startOp⟩, ⟨false, none⟩] (State.resetOf cfg) =
      .next ⟨cfg, { CoreState.reset cfg with runState := .haltedNormal }⟩ ∧
    (CoreState.reset cfg).plen.val = 0 ∧ (∀ i : Fin cfg.NREG, (CoreState.reset cfg).x[i] = 0) ∧
    (CoreState.reset cfg).iter = 0

/-- A step that enters FAULTED records a code 1 to 3 and the pc, and changes nothing else (60_exceptions.md R212,
R213).

That the fault is precise is the spec's own inference: 60_exceptions R215, derived from R212. -/
def Obligations.FaultingStepsArePrecise : Prop :=
  ∀ (cfg : Config) (s t : CoreState cfg), s.runState ≠ .faulted → step ⟨cfg, s⟩ = .next ⟨cfg, t⟩ →
    t.runState = .faulted →
    s.runState = .running ∧ t.x = s.x ∧ t.iter = s.iter ∧ t.faultPc = s.x[s.ipsel] ∧
    ∃ code : BitVec 4, (code = 1 ∨ code = 2 ∨ code = 3) ∧ t = s.afterFault code

/-- In a terminal state nothing but reset changes anything: no step, no host write, no START (40_execution_cycle.md
R120, R136, 70_reset_and_hazards.md R249).

The answer of a step in a terminal state, the same state, is the model's form of 'takes no step'
(notes/assumptions/3.md), and a cycle carries at most one host operation by the model's choice
(notes/assumptions/6.md). -/
def Obligations.TerminalStatesAreLeftOnlyByReset : Prop :=
  ∀ (cfg : Config) (s : CoreState cfg) (op : Option HostOp), s.runState.terminal = true →
    step ⟨cfg, s⟩ = .next ⟨cfg, s⟩ ∧ cycle ⟨false, op⟩ ⟨cfg, s⟩ = .next ⟨cfg, s⟩ ∧
    (∀ o : HostOp, s.applyOp o = s) ∧ cycle ⟨true, op⟩ ⟨cfg, s⟩ = .next (State.resetOf cfg)

/-- After a non-jumping instruction at position p the ip register equals p + 1, without wrap (R132). -/
def Obligations.FallThroughAddsOneToThePosition : Prop :=
  ∀ (cfg : Config) (s : CoreState cfg) (w : InstrWord cfg) (i : Instr),
    s.runState = .running → 0 ≤ s.x[s.ipsel].toInt → s.x[s.ipsel].toInt < s.plen.val →
    Memory.read s.imem s.x[s.ipsel].toNat = some w → decode cfg w = .ok i →
    i.operands.2.2 ≠ (s.ipsel.val : Int) →
    ∃ t : CoreState cfg, step ⟨cfg, s⟩ = .next ⟨cfg, t⟩ ∧ t.ipsel = s.ipsel ∧
      t.x[s.ipsel].toInt = s.x[s.ipsel].toInt + 1

/-- Writing v to the ip register makes the next pc v + 1: the largest v and every v ≤ -2 end the run, -1 restarts at 0
(00_scope.md R9, 40_execution_cycle.md R122, R126, R127, R131).

The cases are the spec's own inferences: 40_execution_cycle R130, R133, R134, derived from R122, R126, R127, R131. -/
def Obligations.JumpTargetsWrapAndNegativeTargetsHalt : Prop :=
  ∀ (cfg : Config) (s : CoreState cfg) (i : Instr) (v : Word cfg.W),
    s.runState = .running → ¬s.CapSet → exec i ⟨cfg, s⟩ = .next ⟨cfg, s.afterExecuting s.ipsel v⟩ →
    ∃ t : CoreState cfg, exec i ⟨cfg, s⟩ = .next ⟨cfg, t⟩ ∧ t.x[s.ipsel] = v + bv cfg.W 1 ∧
      (v = bv cfg.W (2 ^ (cfg.W - 1) - 1) → t.x[s.ipsel] = bv cfg.W (-2 ^ (cfg.W - 1)) ∧
        step ⟨cfg, t⟩ = .next ⟨cfg, { t with runState := .haltedNormal }⟩) ∧
      (v = bv cfg.W (-1) → t.x[s.ipsel] = 0) ∧
      (v.toInt ≤ -2 → t.x[s.ipsel].toInt < 0 ∧
        step ⟨cfg, t⟩ = .next ⟨cfg, { t with runState := .haltedNormal }⟩) ∧
      ((s.plen.val : Int) ≤ v.toInt + 1 →
        step ⟨cfg, t⟩ = .next ⟨cfg, { t with runState := .haltedNormal }⟩)

/-- The idioms of R103 have the effects its table gives: no operation, jumps, skip, not, negate, subtract, complement
(40_execution_cycle.md R121, R131, 41_arithmetic.md R151, R152, R154, 43_assignment.md R171, R172, 44_comparison.md
R185).

The table is the spec's own inference: 30_encoding R103, derived from the rules of the instructions used. -/
def Obligations.IdiomsHaveTheirEffect : Prop :=
  ∀ (cfg : Config) (s : CoreState cfg) (q r u : Fin cfg.NREG) (n : Int),
    (∃ t : CoreState cfg, exec (.setr r.val 0 r.val) ⟨cfg, s⟩ = .next ⟨cfg, t⟩ ∧
      (∀ j : Fin cfg.NREG, j ≠ s.ipsel → t.x[j] = s.x[j]) ∧ t.x[s.ipsel] = s.x[s.ipsel] + bv cfg.W 1) ∧
    (∃ t : CoreState cfg, exec (.seti (n - 1) 0 s.ipsel.val) ⟨cfg, s⟩ = .next ⟨cfg, t⟩ ∧
      t.x[s.ipsel] = bv cfg.W n) ∧
    (∃ t : CoreState cfg, exec (.addi s.ipsel.val n s.ipsel.val) ⟨cfg, s⟩ = .next ⟨cfg, t⟩ ∧
      t.x[s.ipsel] = bv cfg.W (s.x[s.ipsel].toInt + n + 1)) ∧
    (∃ t : CoreState cfg, exec (.addr s.ipsel.val r.val s.ipsel.val) ⟨cfg, s⟩ = .next ⟨cfg, t⟩ ∧
      t.x[s.ipsel] = bv cfg.W (s.x[s.ipsel].toInt + 1 + s.x[r].toInt)) ∧
    (∃ t : CoreState cfg, exec (.seti (-2) 0 s.ipsel.val) ⟨cfg, s⟩ = .next ⟨cfg, t⟩ ∧
      t.x[s.ipsel].toInt = -1) ∧
    (r ≠ s.ipsel →
      (∃ t : CoreState cfg, exec (.seti n 0 r.val) ⟨cfg, s⟩ = .next ⟨cfg, t⟩ ∧ t.x[r] = bv cfg.W n) ∧
      (∃ t : CoreState cfg, exec (.setr q.val 0 r.val) ⟨cfg, s⟩ = .next ⟨cfg, t⟩ ∧ t.x[r] = s.x[q]) ∧
      (s.x[r] = bv cfg.W 0 ∨ s.x[r] = bv cfg.W 1 →
        ∃ t : CoreState cfg, exec (.eqri r.val 0 r.val) ⟨cfg, s⟩ = .next ⟨cfg, t⟩ ∧
          t.x[r] = bv cfg.W 1 - s.x[r]) ∧
      (∃ t : CoreState cfg, exec (.muli q.val (-1) r.val) ⟨cfg, s⟩ = .next ⟨cfg, t⟩ ∧
        t.x[r] = bv cfg.W (-s.x[q].toInt)) ∧
      (u ≠ r → u ≠ s.ipsel →
        ∃ t t' : CoreState cfg, exec (.muli q.val (-1) u.val) ⟨cfg, s⟩ = .next ⟨cfg, t⟩ ∧
          exec (.addr r.val u.val r.val) ⟨cfg, t⟩ = .next ⟨cfg, t'⟩ ∧ t'.x[r] = s.x[r] - s.x[q]) ∧
      (∃ t t' : CoreState cfg, exec (.muli q.val (-1) r.val) ⟨cfg, s⟩ = .next ⟨cfg, t⟩ ∧
        exec (.addi r.val (-1) r.val) ⟨cfg, t⟩ = .next ⟨cfg, t'⟩ ∧ t'.x[r] = ~~~s.x[q]))

/-- The instruction that reaches the cap ends the run in HALTED_CAPPED even when it moves the pc out of range
(40_execution_cycle.md R121, R122, R128, R136).

The spec marks this as its own inference: 40_execution_cycle R138, 'the run ends in HALTED_CAPPED, not HALTED_NORMAL,
with ITER = CAP.N', derived from R121, R122, R128. The last clause, a step at HALTED_CAPPED answers the same state, is
the model's form of 'takes no step' (notes/assumptions/3.md). -/
def Obligations.CapIsReachedBeforeTheBoundsHalt : Prop :=
  ∀ (cfg : Config) (s : CoreState cfg) (w : InstrWord cfg) (i : Instr),
    s.runState = .running → 0 ≤ s.x[s.ipsel].toInt → s.x[s.ipsel].toInt < s.plen.val →
    Memory.read s.imem s.x[s.ipsel].toNat = some w → decode cfg w = .ok i →
    s.CapSet → s.iter + 1 = s.capN →
    ∃ t : CoreState cfg, step ⟨cfg, s⟩ = .next ⟨cfg, t⟩ ∧ t.runState = .haltedCapped ∧ t.iter = s.capN ∧
      step ⟨cfg, t⟩ = .next ⟨cfg, t⟩

/-- A run with the cap in force at N that does not halt normally or fault first ends in HALTED_CAPPED after exactly N
executed instructions (40_execution_cycle.md R121, R122, R128, R139, 60_exceptions.md R212).

For n past an early halt or fault the count takes in steps outside RUNNING, whose answer, the same state, is the
model's form of 'no step happens' (notes/assumptions/3.md). -/
def Obligations.CappedRunExecutesExactlyTheCap : Prop :=
  ∀ (cfg : Config) (s : CoreState cfg), s.runState = .running → s.iter = 0 → s.CapSet →
    ∀ n : Nat, n ≤ s.capN.toNat →
      ∃ t : CoreState cfg, steps n ⟨cfg, s⟩ = .next ⟨cfg, t⟩ ∧
        (((t.runState = .haltedNormal ∨ t.runState = .faulted) ∧ t.iter.toNat < n) ∨
          (t.iter.toNat = n ∧ t.runState = if n = s.capN.toNat then .haltedCapped else .running))

/-- The reset state of every configuration meets the invariant of the core (10_state.md R50, 70_reset_and_hazards.md
R240). -/
def Obligations.ResetMeetsTheInvariant : Prop :=
  ∀ cfg : Config, (CoreState.reset cfg).Inv

/-- Every step keeps the invariant of the core, from every state that meets it (10_state.md R43 to R46,
40_execution_cycle.md R121, R128, 60_exceptions.md R200, R212, R213).

The answer of a step outside RUNNING, the same state, is the model's form of 'no step happens'
(notes/assumptions/3.md). -/
def Obligations.EveryStepKeepsTheInvariant : Prop :=
  ∀ (cfg : Config) (s : CoreState cfg), s.Inv →
    ∃ t : CoreState cfg, step ⟨cfg, s⟩ = .next ⟨cfg, t⟩ ∧ t.Inv

/-- Every host operation, and every clock cycle with any host input, keeps the invariant of the core (10_state.md R40
to R47, 20_memory.md R61, 60_exceptions.md R201, R211, 70_reset_and_hazards.md R240, R245).

That a cycle carries at most one host operation is the model's choice (notes/assumptions/6.md), and so is the
truncation of wide values (notes/assumptions/7.md). -/
def Obligations.EveryHostOperationKeepsTheInvariant : Prop :=
  ∀ (cfg : Config) (s : CoreState cfg), s.Inv →
    (∀ op : HostOp, (s.applyOp op).Inv) ∧
    (∀ inp : HostInput, ∃ t : CoreState cfg, cycle inp ⟨cfg, s⟩ = .next ⟨cfg, t⟩ ∧ t.Inv)

/-- Every clock cycle keeps a checked load: legal words, complete below PLEN once started, and no fault
(30_encoding.md R104, 60_exceptions.md R209, R210, 20_memory.md R64, 70_reset_and_hazards.md R245).

The rule it serves is the spec's own inference: 60_exceptions R214. That a cycle carries at most one host operation is
the model's choice (notes/assumptions/6.md). -/
def Obligations.CheckedLoadIsKept : Prop :=
  ∀ cfg : Config, (CoreState.reset cfg).Loaded ∧
    ∀ (s : CoreState cfg) (inp : HostInput), s.Loaded →
      ∃ t : CoreState cfg, cycle inp ⟨cfg, s⟩ = .next ⟨cfg, t⟩ ∧ t.Loaded

/-- Whatever the host drives from reset on, in every cycle, the core never enters FAULTED (30_encoding.md R104,
60_exceptions.md R209, R210, 20_memory.md R64, 70_reset_and_hazards.md R240, R245, 92_eei_decisions.md D26).

The spec marks this as its own inference: 60_exceptions R214. That a cycle carries at most one host operation is the
model's choice (notes/assumptions/6.md). -/
def Obligations.FaultsAreUnreachableThroughTheLoadPort : Prop :=
  ∀ (cfg : Config) (inputs : List HostInput),
    ∃ t : CoreState cfg, cycles inputs (State.resetOf cfg) = .next ⟨cfg, t⟩ ∧ t.runState ≠ .faulted ∧
      t.faultCode = 0

/-- After reset every piece of state has the value of R50, and the pc is 0 (R50). -/
def Obligations.ResetValuesAreTheSpecs : Prop :=
  ∀ cfg : Config,
    (∀ i : Fin cfg.NREG, (CoreState.reset cfg).x[i] = 0) ∧
    (CoreState.reset cfg).ipsel.val = min 1 (cfg.NREG - 1) ∧
    (∀ p : Nat, Memory.read (CoreState.reset cfg).imem p = none) ∧
    (CoreState.reset cfg).plen.val = 0 ∧ (CoreState.reset cfg).capEn = false ∧ (CoreState.reset cfg).capN = 0 ∧
    (CoreState.reset cfg).iter = 0 ∧ (CoreState.reset cfg).runState = .idle ∧
    (CoreState.reset cfg).loadErr = false ∧ (CoreState.reset cfg).loadCode = 0 ∧
    (CoreState.reset cfg).faultCode = 0 ∧ (CoreState.reset cfg).faultPc = 0 ∧
    (CoreState.reset cfg).x[(CoreState.reset cfg).ipsel] = 0 ∧ (CoreState.reset cfg).status = 0

/-- A cycle with reset gives the reset state whatever the state was and whatever the host drives
(70_reset_and_hazards.md R240).

That a cycle carries at most one host operation beside reset is the model's choice (notes/assumptions/6.md). -/
def Obligations.ResetTakesPriority : Prop :=
  ∀ (s : State) (op : Option HostOp), cycle ⟨true, op⟩ s = .next (State.resetOf s.cfg)

/-- STATUS has its fields at their bits, IPSEL and PLEN fit their registers, and port RS reaches every register
(10_state.md R33, R40, R43 to R47).

The width of a read of a number above 7 is the model's choice (notes/assumptions/8.md). -/
def Obligations.HostReadsGiveTheRegistersTheirValues : Prop :=
  ∀ (cfg : Config) (s : CoreState cfg),
    s.status.extractLsb' 0 3 = s.runState.number ∧ s.status.getLsbD 3 = s.loadErr ∧
    s.status.extractLsb' 4 4 = s.loadCode ∧ s.status.extractLsb' 8 4 = s.faultCode ∧
    s.status.extractLsb' 12 20 = 0 ∧
    s.csrRead 0 = s.status ∧ (s.csrRead 1).toNat = s.ipsel.val ∧ (s.csrRead 2).toNat = s.plen.val ∧
    (s.csrRead 3).toNat = s.capEn.toNat ∧ s.csrRead 4 = s.capN ∧ s.csrRead 5 = s.iter ∧
    s.csrRead 6 = s.faultPc ∧ (∀ n : Nat, 7 ≤ n → (s.csrRead n).toNat = 0) ∧
    (∀ i : Fin cfg.NREG, s.rsData (BitVec.ofNat (indexWidth cfg) i.val) = some s.x[i]) ∧
    s.snapshot = List.ofFn (fun i : Fin cfg.NREG => s.x[i].toInt)

/-- Outside IDLE no host operation has an effect or records a load error, and the step of the cycle happens
(10_state.md R40, 20_memory.md R61, 40_execution_cycle.md R142, 93_implementation_defined.md I24).

That a cycle carries at most one host operation, and that a step in IDLE answers the same state, are the model's
choice (notes/assumptions/6.md, notes/assumptions/3.md). -/
def Obligations.WritesOutsideIdleHaveNoEffect : Prop :=
  ∀ (cfg : Config) (s : CoreState cfg) (op : HostOp),
    (s.runState ≠ .idle → s.applyOp op = s ∧ cycle ⟨false, some op⟩ ⟨cfg, s⟩ = step ⟨cfg, s⟩) ∧
    (s.runState = .idle → step ⟨cfg, s⟩ = .next ⟨cfg, s⟩ ∧
      cycle ⟨false, some op⟩ ⟨cfg, s⟩ = .next ⟨cfg, s.applyOp op⟩)

/-- In IDLE the host writes IPSEL, PLEN and the cap; an illegal IPSEL or PLEN changes nothing and is a load error
(10_state.md R40 to R42, R44, R47, 60_exceptions.md R205, R208, R211). -/
def Obligations.RegisterWritesInIdle : Prop :=
  ∀ (cfg : Config) (s : CoreState cfg), s.runState = .idle →
    (∀ v : Nat, v < cfg.NREG → (s.applyOp (.csrWrite 1 v)).ipsel.val = v ∧
      s.applyOp (.csrWrite 1 v) = { s with ipsel := (s.applyOp (.csrWrite 1 v)).ipsel }) ∧
    (∀ v : Nat, cfg.NREG ≤ v → v < 2 ^ indexWidth cfg → s.applyOp (.csrWrite 1 v) =
      if s.loadErr then s else { s with loadErr := true, loadCode := 4 }) ∧
    (∀ v : Nat, v ≤ cfg.MAXPROG → (s.applyOp (.csrWrite 2 v)).plen.val = v ∧
      s.applyOp (.csrWrite 2 v) = { s with plen := (s.applyOp (.csrWrite 2 v)).plen }) ∧
    (∀ v : Nat, cfg.MAXPROG < v → v < 2 ^ plenWidth cfg → s.applyOp (.csrWrite 2 v) =
      if s.loadErr then s else { s with loadErr := true, loadCode := 7 }) ∧
    (∀ v : Nat, v < 2 → s.applyOp (.csrWrite 3 v) = { s with capEn := decide (v = 1) }) ∧
    (∀ v : Nat, v < 2 ^ CW → s.applyOp (.csrWrite 4 v) = { s with capN := BitVec.ofNat CW v }) ∧
    (∀ num v : Nat, num = 0 ∨ num = 5 ∨ num = 6 ∨ 8 ≤ num → s.applyOp (.csrWrite num v) = s) ∧
    s.applyOp (.csrWrite 7 0) = s

/-- Once a load error is recorded, no host operation changes the record, and no cycle without reset leaves IDLE
(60_exceptions.md R200, R211, 70_reset_and_hazards.md R245).

That a cycle carries at most one host operation is the model's choice (notes/assumptions/6.md). -/
def Obligations.FirstLoadErrorIsKeptUntilReset : Prop :=
  ∀ (cfg : Config) (s : CoreState cfg), s.runState = .idle → s.loadErr = true →
    (∀ ops : List HostOp, (s.applyOps ops).loadErr = true ∧ (s.applyOps ops).loadCode = s.loadCode ∧
      (s.applyOps ops).runState = .idle) ∧
    (∀ inputs : List HostInput, (∀ inp ∈ inputs, inp.rst = false) →
      ∃ t : CoreState cfg, cycles inputs ⟨cfg, s⟩ = .next ⟨cfg, t⟩ ∧ t.loadErr = true ∧
        t.loadCode = s.loadCode ∧ t.runState = .idle)

/-- A load-port write in IDLE stores a word that passes the checks of R104 in their order, and records the first that
fails (R104). -/
def Obligations.LoadPortChecksEachWord : Prop :=
  ∀ (cfg : Config) (s : CoreState cfg) (p : Nat) (w : InstrWord cfg), s.runState = .idle →
    if cfg.MAXPROG ≤ p then
      s.imemWrite p w = if s.loadErr then s else { s with loadErr := true, loadCode := 7 }
    else if reservedBits cfg w ≠ 0 then
      s.imemWrite p w = if s.loadErr then s else { s with loadErr := true, loadCode := 8 }
    else if ((semanticTable (opcodeOf cfg w)).2.1 = .reg ∧ isRegister cfg (laneA cfg w).toInt = false) ∨
        ((semanticTable (opcodeOf cfg w)).2.2 = .reg ∧ isRegister cfg (laneB cfg w).toInt = false) ∨
        isRegister cfg (laneC cfg w).toInt = false then
      s.imemWrite p w = if s.loadErr then s else { s with loadErr := true, loadCode := 6 }
    else
      (∀ q : Nat, Memory.read (s.imemWrite p w).imem q = if q = p then some w else Memory.read s.imem q) ∧
      s.imemWrite p w = { s with imem := (s.imemWrite p w).imem }

/-- START enters RUNNING only from IDLE, without a load error and with every position below PLEN written (R245).

That every register and ITER are 0 at START is the statement RunsBeginWithRegistersZero: here the state in IDLE is
any. -/
def Obligations.StartFollowsItsRule : Prop :=
  ∀ (cfg : Config) (s : CoreState cfg),
    (s.runState ≠ .idle → s.applyOp startOp = s) ∧
    (s.runState = .idle → s.loadErr = true → s.applyOp startOp = s) ∧
    (s.runState = .idle → s.loadErr = false →
      (∃ p : Nat, p < s.plen.val ∧ Memory.read s.imem p = none) →
      s.applyOp startOp = { s with loadErr := true, loadCode := 9 }) ∧
    (s.runState = .idle → s.loadErr = false →
      (∀ p : Nat, p < s.plen.val → ∃ w, Memory.read s.imem p = some w) →
      s.applyOp startOp = { s with runState := .running } ∧
      cycle ⟨false, some startOp⟩ ⟨cfg, s⟩ = .next ⟨cfg, { s with runState := .running }⟩)

/-- When a cycle takes the core from IDLE to RUNNING every register is 0, the pc is 0 and ITER is 0
(70_reset_and_hazards.md R240, R245, 10_state.md R50).

The spec marks this as its own inference: 70_reset_and_hazards R248, derived from R240, R245 and 10_state R50. That a
cycle carries at most one host operation is the model's choice (notes/assumptions/6.md). -/
def Obligations.RunsBeginWithRegistersZero : Prop :=
  ∀ (cfg : Config) (inputs : List HostInput) (inp : HostInput) (s t : CoreState cfg),
    cycles inputs (State.resetOf cfg) = .next ⟨cfg, s⟩ → s.runState = .idle →
    cycle inp ⟨cfg, s⟩ = .next ⟨cfg, t⟩ → t.runState = .running →
    (∀ i : Fin cfg.NREG, t.x[i] = 0) ∧ t.x[t.ipsel] = 0 ∧ t.iter = 0

/-- set_iteration_cap(n) turns the cap off for n ≤ 0, puts it in force at n for 1 ≤ n < 2^CW, and refuses a larger n
(R244). -/
def Obligations.IterationCapOperation : Prop :=
  ∀ (cfg : Config) (s : CoreState cfg) (n : Int), s.runState = .idle →
    (n ≤ 0 → ∃ ops, setIterationCap n = some ops ∧ s.applyOps ops = { s with capEn := false, capN := 0 } ∧
      ¬(s.applyOps ops).CapSet) ∧
    (1 ≤ n → n ≤ 2 ^ CW - 1 → ∃ ops, setIterationCap n = some ops ∧
      s.applyOps ops = { s with capEn := true, capN := bv CW n } ∧
      ((s.applyOps ops).capN.toNat : Int) = n ∧ (s.applyOps ops).CapSet) ∧
    (2 ^ CW ≤ n → setIterationCap n = none)

/-- A core is built exactly for parameters within their constraints, and starts at reset; a register count ≤ 0 is
REGISTER_COUNT (60_exceptions.md R206, 70_reset_and_hazards.md R241, 00_scope.md R7).

That a register count at most 0 is reported before any other bad parameter is the model's choice
(notes/assumptions/14.md). -/
def Obligations.ConstructionRefusesBadParameters : Prop :=
  ∀ (w : Nat) (n : Int) (m : Nat),
    (n ≤ 0 → construct w n m = .error .registerCount ∧
      BuildRefusal.registerCount.loadError = some .registerCount ∧ LoadError.registerCount.number = 5) ∧
    ((8 ≤ w ∧ 1 ≤ n ∧ n ≤ 2 ^ (w - 1) - 1 ∧ m ≤ 2 ^ (w - 1) - 1) ↔
      ∃ cfg : Config, construct w n m = .ok (State.resetOf cfg) ∧ cfg.W = w ∧ (cfg.NREG : Int) = n ∧
        cfg.MAXPROG = m)

/-- A text the loader accepts has an ip index below NREG, at most MAXPROG instructions, and every instruction well
formed (30_encoding.md R83, R84, R87 to R90).

Characters that the grammar does not name are the model's choice (notes/assumptions/10.md). -/
def Obligations.AcceptedTextIsWellFormed : Prop :=
  ∀ (cfg : Config) (mk : IpMarker) (text : List Char) (p : Program), loadText cfg mk text = .ok p →
    p.ip < cfg.NREG ∧ p.code.length ≤ cfg.MAXPROG ∧ ∀ i ∈ p.code, i.wellFormed cfg = true

/-- A program the text loader accepts is loaded by the host's writes exactly, and START then enters RUNNING
(70_reset_and_hazards.md R240, R242 to R245, 30_encoding.md R90, R92, R94, R104).

The order of the load writes is the model's choice (notes/assumptions/15.md), and so are characters that the grammar
does not name (notes/assumptions/10.md). That registers and ITER are 0 at START is the spec's own inference:
70_reset_and_hazards R248. -/
def Obligations.AcceptedTextStartsRunning : Prop :=
  ∀ (cfg : Config) (mk : IpMarker) (text : List Char) (p : Program) (cap : Int),
    loadText cfg mk text = .ok p → cap < 2 ^ CW →
    ∃ t : CoreState cfg, boot cfg p cap = some t ∧ t.runState = .running ∧ t.loadErr = false ∧
      t.ipsel.val = p.ip ∧ t.plen.val = p.code.length ∧
      (∀ k : Nat, Memory.read t.imem k = (p.code[k]?).map (encode cfg)) ∧
      (t.CapSet ↔ 1 ≤ cap) ∧ (1 ≤ cap → (t.capN.toNat : Int) = cap) ∧
      (∀ i : Fin cfg.NREG, t.x[i] = 0) ∧ t.iter = 0

/-- The text of a well-formed instruction, read as an instruction line, is the instruction again (30_encoding.md R102,
R85 to R90). -/
def Obligations.DisassembledTextReadsBack : Prop :=
  ∀ (cfg : Config) (pos : Nat) (i : Instr), i.wellFormed cfg = true → pos < cfg.MAXPROG →
    instrOfLine cfg pos (textOf i) = .ok i ∧ disassemble cfg (encode cfg i) = some (textOf i)
end

