-- ==== Sys2Proof/Laws/Encoding.lean ====
section
/-!
SUPPORT. The lanes of an instruction word: packing and unpacking, and what the decoder reads.
-/

namespace Sys2Proof

variable (cfg : Config) (o a b c : Word cfg.W)

@[simp] theorem opl_packLanes : opl cfg (packLanes cfg o a b c) = o := by
  apply BitVec.eq_of_getLsbD_eq
  intro i hi
  simp [opl, lane, packLanes, BitVec.getLsbD_append, hi]

@[simp] theorem laneA_packLanes : laneA cfg (packLanes cfg o a b c) = a := by
  apply BitVec.eq_of_getLsbD_eq
  intro i hi
  have h1 : ¬ (1 * cfg.W + i < cfg.W) := by omega
  have h2 : 1 * cfg.W + i - cfg.W = i := by omega
  simp only [laneA, lane, packLanes, BitVec.getLsbD_extractLsb', BitVec.getLsbD_cast, BitVec.getLsbD_append]
  simp only [h1, h2, hi, decide_true, Bool.true_and, if_true, if_false]

@[simp] theorem laneB_packLanes : laneB cfg (packLanes cfg o a b c) = b := by
  apply BitVec.eq_of_getLsbD_eq
  intro i hi
  have h1 : ¬ (2 * cfg.W + i < cfg.W) := by omega
  have h2 : ¬ (2 * cfg.W + i - cfg.W < cfg.W) := by omega
  have h3 : 2 * cfg.W + i - cfg.W - cfg.W = i := by omega
  simp only [laneB, lane, packLanes, BitVec.getLsbD_extractLsb', BitVec.getLsbD_cast, BitVec.getLsbD_append]
  simp only [h1, h2, h3, hi, decide_true, Bool.true_and, if_true, if_false]

@[simp] theorem laneC_packLanes : laneC cfg (packLanes cfg o a b c) = c := by
  apply BitVec.eq_of_getLsbD_eq
  intro i hi
  have h1 : ¬ (3 * cfg.W + i < cfg.W) := by omega
  have h2 : ¬ (3 * cfg.W + i - cfg.W < cfg.W) := by omega
  have h3 : ¬ (3 * cfg.W + i - cfg.W - cfg.W < cfg.W) := by omega
  have h4 : 3 * cfg.W + i - cfg.W - cfg.W - cfg.W = i := by omega
  simp only [laneC, lane, packLanes, BitVec.getLsbD_extractLsb', BitVec.getLsbD_cast, BitVec.getLsbD_append]
  simp only [h1, h2, h3, h4, hi, decide_true, Bool.true_and, if_false]

/-- A word is the packing of its own lanes. -/
theorem packLanes_lanes (w : InstrWord cfg) :
    packLanes cfg (opl cfg w) (laneA cfg w) (laneB cfg w) (laneC cfg w) = w := by
  apply BitVec.eq_of_getLsbD_eq
  intro i hi
  simp only [opl, laneA, laneB, laneC, lane, packLanes, BitVec.getLsbD_extractLsb', BitVec.getLsbD_cast,
    BitVec.getLsbD_append]
  by_cases h1 : i < cfg.W
  · simp [h1]
  · by_cases h2 : i - cfg.W < cfg.W
    · simp [h1, h2]
      congr 1; omega
    · by_cases h3 : i - cfg.W - cfg.W < cfg.W
      · have : 2 * cfg.W + (i - cfg.W - cfg.W) = i := by omega
        simp [h1, h2, h3, this]
      · have : 3 * cfg.W + (i - cfg.W - cfg.W - cfg.W) = i := by omega
        have h4 : i - cfg.W - cfg.W - cfg.W < cfg.W := by omega
        simp [h1, h2, h3, h4, this]

/-- Equal lanes make equal words. -/
theorem word_ext_of_lanes (w w' : InstrWord cfg) (ho : opl cfg w = opl cfg w') (ha : laneA cfg w = laneA cfg w')
    (hb : laneB cfg w = laneB cfg w') (hc : laneC cfg w = laneC cfg w') : w = w' := by
  rw [← packLanes_lanes cfg w, ← packLanes_lanes cfg w', ho, ha, hb, hc]

/-! ### Literals -/

/-- A W-bit signed literal is the signed value of its lane. -/
theorem bv_toInt_of_isLiteral (n : Int) (h : isLiteral cfg n = true) : (bv cfg.W n).toInt = n := by
  have hw := cfg.W_ge
  simp only [isLiteral, decide_eq_true_eq] at h
  have hp : (2 : Int) ^ cfg.W = 2 * 2 ^ (cfg.W - 1) := by
    rw [← pow_succ', Nat.sub_add_cancel (by omega)]
  rw [BitVec.toInt_ofInt, Int.bmod_eq_of_le] <;> push_cast <;> omega

/-- The signed value of a lane is a W-bit signed literal. -/
theorem isLiteral_toInt (v : Word cfg.W) : isLiteral cfg v.toInt = true := by
  have h1 := BitVec.toInt_lt (x := v)
  have h2 := BitVec.le_toInt v
  simp only [isLiteral, decide_eq_true_eq]
  omega

/-- A register index is a W-bit signed literal (00_scope R7: NREG ≤ 2^(W-1) - 1). -/
theorem isLiteral_of_isRegister (n : Int) (h : isRegister cfg n = true) : isLiteral cfg n = true := by
  have hn := cfg.NREG_le
  have hpos : (0 : Int) < 2 ^ (cfg.W - 1) := by positivity
  have hcast : ((2 ^ (cfg.W - 1) : Nat) : Int) = 2 ^ (cfg.W - 1) := by push_cast; rfl
  simp only [isRegister, isLiteral, decide_eq_true_eq] at h ⊢
  omega

/-- The lane of the signed value of v is v. -/
@[simp] theorem bv_toInt (v : Word cfg.W) : bv cfg.W v.toInt = v := BitVec.ofInt_toInt

/-! ### The opcode lane -/

theorem opcode_setWidth_shift (op : BitVec 4) : (op.setWidth cfg.W) >>> 4 = 0 := by
  apply BitVec.eq_of_toNat_eq
  have h := op.isLt
  simp only [BitVec.toNat_ushiftRight, BitVec.toNat_setWidth, Nat.shiftRight_eq_div_pow]
  have : op.toNat % 2 ^ cfg.W ≤ op.toNat := Nat.mod_le _ _
  rw [Nat.div_eq_of_lt (by omega)]
  simp

theorem opcode_setWidth_setWidth (op : BitVec 4) : (op.setWidth cfg.W).setWidth 4 = op := by
  have hw := cfg.W_ge
  apply BitVec.eq_of_toNat_eq
  have h := op.isLt
  simp only [BitVec.toNat_setWidth]
  rw [Nat.mod_eq_of_lt (a := op.toNat) (Nat.lt_of_lt_of_le h (Nat.pow_le_pow_right (by omega) (by omega))),
    Nat.mod_eq_of_lt (by omega)]

/-- An opcode lane without reserved bits is its opcode number. -/
theorem opl_eq_of_reserved_zero (w : InstrWord cfg) (h : reservedBits cfg w = 0) :
    opl cfg w = (opcodeOf cfg w).setWidth cfg.W := by
  have hw := cfg.W_ge
  have h' : (opl cfg w).toNat / 16 = 0 := by
    have := congrArg BitVec.toNat h
    simpa [reservedBits, BitVec.toNat_ushiftRight, Nat.shiftRight_eq_div_pow] using this
  apply BitVec.eq_of_toNat_eq
  have hlt : (opl cfg w).toNat < 16 := by omega
  simp only [opcodeOf, BitVec.toNat_setWidth]
  rw [Nat.mod_eq_of_lt (a := (opl cfg w).toNat) (by omega)]
  exact (Nat.mod_eq_of_lt (opl cfg w).isLt).symm

/-- No reserved bit is set exactly when the opcode lane is below 16 (30_encoding R93). -/
theorem reservedBits_eq_zero_iff (w : InstrWord cfg) : reservedBits cfg w = 0 ↔ (opl cfg w).toNat < 16 := by
  constructor
  · intro h
    have := congrArg BitVec.toNat h
    simp [reservedBits, BitVec.toNat_ushiftRight, Nat.shiftRight_eq_div_pow] at this
    omega
  · intro h
    apply BitVec.eq_of_toNat_eq
    simp [reservedBits, BitVec.toNat_ushiftRight, Nat.shiftRight_eq_div_pow]
    omega

/-! ### The opcode map -/

/-- An instruction is the opcode map at its own number and operands. -/
theorem instrOfOpcode_opcode (i : Instr) :
    instrOfOpcode i.opcode i.operands.1 i.operands.2.1 i.operands.2.2 = i := by
  cases i <;> rfl

theorem instrOfOpcode_operands (op : BitVec 4) (a b c : Int) : (instrOfOpcode op a b c).operands = (a, b, c) := by
  unfold instrOfOpcode; split <;> rfl

theorem opcode_instrOfOpcode (op : BitVec 4) (a b c : Int) : (instrOfOpcode op a b c).opcode = op := by
  obtain ⟨⟨n, hn⟩⟩ := op
  have hn' : n < 16 := hn
  interval_cases n <;> rfl

/-- A well-formed instruction passes the register check of the decoder. -/
theorem registersValid_of_wellFormed (i : Instr) (h : i.wellFormed cfg = true) : i.registersValid cfg = true := by
  cases i <;> simp_all [Instr.wellFormed, Instr.registersValid]

/-- Valid register operands and literals within the W-bit range make a well-formed instruction. -/
theorem wellFormed_of_registersValid (i : Instr) (h : i.registersValid cfg = true)
    (ha : isLiteral cfg i.operands.1 = true) (hb : isLiteral cfg i.operands.2.1 = true)
    (hc : isLiteral cfg i.operands.2.2 = true) : i.wellFormed cfg = true := by
  cases i <;> simp_all [Instr.wellFormed, Instr.registersValid, Instr.operands]

theorem readWord_of_reserved (w : InstrWord cfg) (h : reservedBits cfg w ≠ 0) :
    readWord cfg w = .error .reservedBits := if_pos h

theorem readWord_of_clear (w : InstrWord cfg) (h : reservedBits cfg w = 0) :
    readWord cfg w = .ok (instrOfOpcode (opcodeOf cfg w) (laneA cfg w).toInt (laneB cfg w).toInt
      (laneC cfg w).toInt) := if_neg (not_not_intro h)

/-- The decoder's answer: the tuple of the word when it is legal, else the first reason (30_encoding R99). -/
theorem decode_eq (w : InstrWord cfg) :
    decode cfg w =
      if reservedBits cfg w ≠ 0 then .error .reservedBits
      else if (instrOfOpcode (opcodeOf cfg w) (laneA cfg w).toInt (laneB cfg w).toInt
          (laneC cfg w).toInt).registersValid cfg then
        .ok (instrOfOpcode (opcodeOf cfg w) (laneA cfg w).toInt (laneB cfg w).toInt (laneC cfg w).toInt)
      else .error .regIndex := by
  unfold decode readWord
  by_cases h : reservedBits cfg w ≠ 0
  · rw [if_pos h, if_pos h]
  · rw [if_neg h, if_neg h]

/-- The decoder answers an instruction exactly when the word has that tuple and valid register operands. -/
theorem decode_eq_ok_iff (w : InstrWord cfg) (i : Instr) :
    decode cfg w = .ok i ↔ readWord cfg w = .ok i ∧ i.registersValid cfg = true := by
  unfold decode
  cases readWord cfg w with
  | error e => simp
  | ok j =>
    simp only [Except.ok.injEq]
    constructor
    · intro h
      split at h
      · rename_i hj
        cases h
        exact ⟨rfl, hj⟩
      · cases h
    · rintro ⟨rfl, hj⟩
      simp [hj]

end Sys2Proof
end

