-- ==== Sys2Proof/Laws/State.lean ====
section
/-!
SUPPORT. One lemma per field of the core for each state update of Machine/Ops.lean.
-/

namespace Sys2Proof.Machine

variable {cfg : Config} (c : CoreState cfg)

/-! ### setReg -/

@[simp] theorem CoreState.setReg_x (i : Fin cfg.NREG) (v : Word cfg.W) : (c.setReg i v).x = c.x.set i v := rfl
@[simp] theorem CoreState.setReg_ipsel (i : Fin cfg.NREG) (v : Word cfg.W) : (c.setReg i v).ipsel = c.ipsel := rfl
@[simp] theorem CoreState.setReg_imem (i : Fin cfg.NREG) (v : Word cfg.W) : (c.setReg i v).imem = c.imem := rfl
@[simp] theorem CoreState.setReg_plen (i : Fin cfg.NREG) (v : Word cfg.W) : (c.setReg i v).plen = c.plen := rfl
@[simp] theorem CoreState.setReg_capEn (i : Fin cfg.NREG) (v : Word cfg.W) : (c.setReg i v).capEn = c.capEn := rfl
@[simp] theorem CoreState.setReg_capN (i : Fin cfg.NREG) (v : Word cfg.W) : (c.setReg i v).capN = c.capN := rfl
@[simp] theorem CoreState.setReg_iter (i : Fin cfg.NREG) (v : Word cfg.W) : (c.setReg i v).iter = c.iter := rfl
@[simp] theorem CoreState.setReg_runState (i : Fin cfg.NREG) (v : Word cfg.W) : (c.setReg i v).runState = c.runState := rfl
@[simp] theorem CoreState.setReg_loadErr (i : Fin cfg.NREG) (v : Word cfg.W) : (c.setReg i v).loadErr = c.loadErr := rfl
@[simp] theorem CoreState.setReg_loadCode (i : Fin cfg.NREG) (v : Word cfg.W) : (c.setReg i v).loadCode = c.loadCode := rfl
@[simp] theorem CoreState.setReg_faultCode (i : Fin cfg.NREG) (v : Word cfg.W) : (c.setReg i v).faultCode = c.faultCode := rfl
@[simp] theorem CoreState.setReg_faultPc (i : Fin cfg.NREG) (v : Word cfg.W) : (c.setReg i v).faultPc = c.faultPc := rfl

/-! ### bumpIp -/

@[simp] theorem CoreState.bumpIp_x : c.bumpIp.x = c.x.set c.ipsel (c.pc + BitVec.ofNat cfg.W 1) := rfl
@[simp] theorem CoreState.bumpIp_ipsel : c.bumpIp.ipsel = c.ipsel := rfl
@[simp] theorem CoreState.bumpIp_imem : c.bumpIp.imem = c.imem := rfl
@[simp] theorem CoreState.bumpIp_plen : c.bumpIp.plen = c.plen := rfl
@[simp] theorem CoreState.bumpIp_capEn : c.bumpIp.capEn = c.capEn := rfl
@[simp] theorem CoreState.bumpIp_capN : c.bumpIp.capN = c.capN := rfl
@[simp] theorem CoreState.bumpIp_iter : c.bumpIp.iter = c.iter := rfl
@[simp] theorem CoreState.bumpIp_runState : c.bumpIp.runState = c.runState := rfl
@[simp] theorem CoreState.bumpIp_loadErr : c.bumpIp.loadErr = c.loadErr := rfl
@[simp] theorem CoreState.bumpIp_loadCode : c.bumpIp.loadCode = c.loadCode := rfl
@[simp] theorem CoreState.bumpIp_faultCode : c.bumpIp.faultCode = c.faultCode := rfl
@[simp] theorem CoreState.bumpIp_faultPc : c.bumpIp.faultPc = c.faultPc := rfl

/-! ### countInstr -/

@[simp] theorem CoreState.countInstr_x : c.countInstr.x = c.x := rfl
@[simp] theorem CoreState.countInstr_ipsel : c.countInstr.ipsel = c.ipsel := rfl
@[simp] theorem CoreState.countInstr_imem : c.countInstr.imem = c.imem := rfl
@[simp] theorem CoreState.countInstr_plen : c.countInstr.plen = c.plen := rfl
@[simp] theorem CoreState.countInstr_capEn : c.countInstr.capEn = c.capEn := rfl
@[simp] theorem CoreState.countInstr_capN : c.countInstr.capN = c.capN := rfl
@[simp] theorem CoreState.countInstr_iter : c.countInstr.iter = c.iter + 1 := rfl
@[simp] theorem CoreState.countInstr_runState : c.countInstr.runState = if c.capInForce ∧ c.iter + 1 = c.capN then .haltedCapped else c.runState := rfl
@[simp] theorem CoreState.countInstr_loadErr : c.countInstr.loadErr = c.loadErr := rfl
@[simp] theorem CoreState.countInstr_loadCode : c.countInstr.loadCode = c.loadCode := rfl
@[simp] theorem CoreState.countInstr_faultCode : c.countInstr.faultCode = c.faultCode := rfl
@[simp] theorem CoreState.countInstr_faultPc : c.countInstr.faultPc = c.faultPc := rfl

/-! ### retire -/

@[simp] theorem CoreState.retire_x (k : Fin cfg.NREG) (v : Word cfg.W) : (c.retire k v).x = (c.setReg k v).bumpIp.x := rfl
@[simp] theorem CoreState.retire_ipsel (k : Fin cfg.NREG) (v : Word cfg.W) : (c.retire k v).ipsel = c.ipsel := rfl
@[simp] theorem CoreState.retire_imem (k : Fin cfg.NREG) (v : Word cfg.W) : (c.retire k v).imem = c.imem := rfl
@[simp] theorem CoreState.retire_plen (k : Fin cfg.NREG) (v : Word cfg.W) : (c.retire k v).plen = c.plen := rfl
@[simp] theorem CoreState.retire_capEn (k : Fin cfg.NREG) (v : Word cfg.W) : (c.retire k v).capEn = c.capEn := rfl
@[simp] theorem CoreState.retire_capN (k : Fin cfg.NREG) (v : Word cfg.W) : (c.retire k v).capN = c.capN := rfl
@[simp] theorem CoreState.retire_iter (k : Fin cfg.NREG) (v : Word cfg.W) : (c.retire k v).iter = c.iter + 1 := rfl
@[simp] theorem CoreState.retire_runState (k : Fin cfg.NREG) (v : Word cfg.W) : (c.retire k v).runState = if c.capInForce ∧ c.iter + 1 = c.capN then .haltedCapped else c.runState := rfl
@[simp] theorem CoreState.retire_loadErr (k : Fin cfg.NREG) (v : Word cfg.W) : (c.retire k v).loadErr = c.loadErr := rfl
@[simp] theorem CoreState.retire_loadCode (k : Fin cfg.NREG) (v : Word cfg.W) : (c.retire k v).loadCode = c.loadCode := rfl
@[simp] theorem CoreState.retire_faultCode (k : Fin cfg.NREG) (v : Word cfg.W) : (c.retire k v).faultCode = c.faultCode := rfl
@[simp] theorem CoreState.retire_faultPc (k : Fin cfg.NREG) (v : Word cfg.W) : (c.retire k v).faultPc = c.faultPc := rfl

/-! ### haltNormal -/

@[simp] theorem CoreState.haltNormal_x : c.haltNormal.x = c.x := rfl
@[simp] theorem CoreState.haltNormal_ipsel : c.haltNormal.ipsel = c.ipsel := rfl
@[simp] theorem CoreState.haltNormal_imem : c.haltNormal.imem = c.imem := rfl
@[simp] theorem CoreState.haltNormal_plen : c.haltNormal.plen = c.plen := rfl
@[simp] theorem CoreState.haltNormal_capEn : c.haltNormal.capEn = c.capEn := rfl
@[simp] theorem CoreState.haltNormal_capN : c.haltNormal.capN = c.capN := rfl
@[simp] theorem CoreState.haltNormal_iter : c.haltNormal.iter = c.iter := rfl
@[simp] theorem CoreState.haltNormal_runState : c.haltNormal.runState = .haltedNormal := rfl
@[simp] theorem CoreState.haltNormal_loadErr : c.haltNormal.loadErr = c.loadErr := rfl
@[simp] theorem CoreState.haltNormal_loadCode : c.haltNormal.loadCode = c.loadCode := rfl
@[simp] theorem CoreState.haltNormal_faultCode : c.haltNormal.faultCode = c.faultCode := rfl
@[simp] theorem CoreState.haltNormal_faultPc : c.haltNormal.faultPc = c.faultPc := rfl

/-! ### takeFault -/

@[simp] theorem CoreState.takeFault_x (f : FaultCode) : (c.takeFault f).x = c.x := rfl
@[simp] theorem CoreState.takeFault_ipsel (f : FaultCode) : (c.takeFault f).ipsel = c.ipsel := rfl
@[simp] theorem CoreState.takeFault_imem (f : FaultCode) : (c.takeFault f).imem = c.imem := rfl
@[simp] theorem CoreState.takeFault_plen (f : FaultCode) : (c.takeFault f).plen = c.plen := rfl
@[simp] theorem CoreState.takeFault_capEn (f : FaultCode) : (c.takeFault f).capEn = c.capEn := rfl
@[simp] theorem CoreState.takeFault_capN (f : FaultCode) : (c.takeFault f).capN = c.capN := rfl
@[simp] theorem CoreState.takeFault_iter (f : FaultCode) : (c.takeFault f).iter = c.iter := rfl
@[simp] theorem CoreState.takeFault_runState (f : FaultCode) : (c.takeFault f).runState = .faulted := rfl
@[simp] theorem CoreState.takeFault_loadErr (f : FaultCode) : (c.takeFault f).loadErr = c.loadErr := rfl
@[simp] theorem CoreState.takeFault_loadCode (f : FaultCode) : (c.takeFault f).loadCode = c.loadCode := rfl
@[simp] theorem CoreState.takeFault_faultCode (f : FaultCode) : (c.takeFault f).faultCode = f.number := rfl
@[simp] theorem CoreState.takeFault_faultPc (f : FaultCode) : (c.takeFault f).faultPc = c.pc := rfl

/-! ### recordLoadError -/

@[simp] theorem CoreState.recordLoadError_x (e : LoadError) : (c.recordLoadError e).x = c.x := by
  unfold CoreState.recordLoadError; split <;> rfl
@[simp] theorem CoreState.recordLoadError_ipsel (e : LoadError) : (c.recordLoadError e).ipsel = c.ipsel := by
  unfold CoreState.recordLoadError; split <;> rfl
@[simp] theorem CoreState.recordLoadError_imem (e : LoadError) : (c.recordLoadError e).imem = c.imem := by
  unfold CoreState.recordLoadError; split <;> rfl
@[simp] theorem CoreState.recordLoadError_plen (e : LoadError) : (c.recordLoadError e).plen = c.plen := by
  unfold CoreState.recordLoadError; split <;> rfl
@[simp] theorem CoreState.recordLoadError_capEn (e : LoadError) : (c.recordLoadError e).capEn = c.capEn := by
  unfold CoreState.recordLoadError; split <;> rfl
@[simp] theorem CoreState.recordLoadError_capN (e : LoadError) : (c.recordLoadError e).capN = c.capN := by
  unfold CoreState.recordLoadError; split <;> rfl
@[simp] theorem CoreState.recordLoadError_iter (e : LoadError) : (c.recordLoadError e).iter = c.iter := by
  unfold CoreState.recordLoadError; split <;> rfl
@[simp] theorem CoreState.recordLoadError_runState (e : LoadError) : (c.recordLoadError e).runState = c.runState := by
  unfold CoreState.recordLoadError; split <;> rfl
@[simp] theorem CoreState.recordLoadError_faultCode (e : LoadError) : (c.recordLoadError e).faultCode = c.faultCode := by
  unfold CoreState.recordLoadError; split <;> rfl
@[simp] theorem CoreState.recordLoadError_faultPc (e : LoadError) : (c.recordLoadError e).faultPc = c.faultPc := by
  unfold CoreState.recordLoadError; split <;> rfl
@[simp] theorem CoreState.recordLoadError_loadErr (e : LoadError) : (c.recordLoadError e).loadErr = true := by
  unfold CoreState.recordLoadError; split <;> simp_all
theorem CoreState.recordLoadError_loadCode (e : LoadError) :
    (c.recordLoadError e).loadCode = if c.loadErr then c.loadCode else e.number := by
  unfold CoreState.recordLoadError; split <;> simp_all

end Sys2Proof.Machine
end

