-- ==== Sys2Proof/Laws/HostPort.lean ====
section
/-!
SUPPORT. Widths of the host's registers and index ports, the semantic table against the register check of the decoder,
and what each host operation can do.
-/

namespace Sys2Proof.Machine

variable {cfg : Config}

/-! ### Widths -/

theorem le_two_pow_ceilLog2 (n : Nat) : n ≤ 2 ^ ceilLog2 n := by
  unfold ceilLog2
  split
  · simpa using by assumption
  · have := Nat.lt_log2_self (n := n - 1)
    omega

theorem NREG_le_two_pow_indexWidth (cfg : Config) : cfg.NREG ≤ 2 ^ indexWidth cfg :=
  (le_two_pow_ceilLog2 cfg.NREG).trans (Nat.pow_le_pow_right (by omega) (Nat.le_max_right _ _))

theorem MAXPROG_lt_two_pow_plenWidth (cfg : Config) : cfg.MAXPROG < 2 ^ plenWidth cfg :=
  (le_two_pow_ceilLog2 (cfg.MAXPROG + 1)).trans (Nat.pow_le_pow_right (by omega) (Nat.le_max_right _ _))

/-! ### Register indices on ports -/

/-- The signed and the unsigned index check agree (30_encoding R98). -/
theorem validIndex_eq (v : Word cfg.W) : validIndex cfg v = isRegister cfg v.toInt := by
  have hn := cfg.NREG_le
  have hp : (2 : Nat) ^ cfg.W = 2 * 2 ^ (cfg.W - 1) := by
    rw [← pow_succ', Nat.sub_add_cancel (by have := cfg.W_ge; omega)]
  have hlt := v.isLt
  have hc : ((2 ^ cfg.W : Nat) : Int) = 2 ^ cfg.W := by push_cast; rfl
  have hi := BitVec.toInt_eq_toNat_cond v
  simp only [validIndex, isRegister, decide_eq_decide]
  split at hi
  · constructor
    · intro h
      constructor <;> omega
    · intro h
      omega
  · constructor
    · intro h
      omega
    · intro h
      omega

/-- K bits hold every valid index (30_encoding R98). -/
theorem portIndex_toNat (v : Word cfg.W) (h : validIndex cfg v = true) : (portIndex cfg v).toNat = v.toNat := by
  have hk := NREG_le_two_pow_indexWidth cfg
  simp only [validIndex, decide_eq_true_eq] at h
  simp only [portIndex, BitVec.toNat_setWidth]
  exact Nat.mod_eq_of_lt (by omega)

/-- The register check of the decoder is the check of every operand that the semantic table marks register-mode, and of
c (30_encoding R94, R98). -/
theorem registersValid_table (op : BitVec 4) (a b c : Int) :
    (instrOfOpcode op a b c).registersValid cfg = true ↔
      ((semanticTable op).2.1 = .reg → isRegister cfg a = true) ∧
      ((semanticTable op).2.2 = .reg → isRegister cfg b = true) ∧ isRegister cfg c = true := by
  obtain ⟨⟨n, hn⟩⟩ := op
  have hn' : n < 16 := hn
  interval_cases n <;> simp [instrOfOpcode, semanticTable, Instr.registersValid] <;> tauto

/-! ### Host operations -/

theorem CoreState.programComplete_iff (s : CoreState cfg) :
    s.programComplete = true ↔ ∀ p, p < s.plen.val → ∃ w, Memory.read s.imem p = some w := by
  simp [CoreState.programComplete, List.all_eq_true, Option.isSome_iff_exists]

/-- Everything START can do (70_reset_and_hazards R245). -/
theorem CoreState.start_cases (s : CoreState cfg) :
    ((s.runState ≠ .idle ∨ s.loadErr = true) ∧ s.start = s) ∨
    (s.runState = .idle ∧ s.loadErr = false ∧ s.programComplete = true ∧
      s.start = { s with runState := .running }) ∨
    (s.runState = .idle ∧ s.loadErr = false ∧ s.programComplete = false ∧
      s.start = s.recordLoadError .incompleteProgram) := by
  unfold CoreState.start
  by_cases h1 : s.runState = .idle <;> cases h2 : s.loadErr <;> cases h3 : s.programComplete <;> simp [h1]

/-- The core records a load error of the kinds it finds itself (60_exceptions R201). -/
def CoreError (e : LoadError) : Prop :=
  e = .badIpDirective ∨ e = .operandOutOfRange ∨ e = .programTooLong ∨ e = .badOpcodeField ∨ e = .incompleteProgram

/-- The load-port check passes a word exactly when its position exists and it decodes (30_encoding R104). -/
theorem loadPortCheck_cases (p : Nat) (w : InstrWord cfg) :
    (p < cfg.MAXPROG ∧ (∃ i, decode cfg w = .ok i) ∧ loadPortCheck cfg p w = .ok ()) ∨
    (∃ e, CoreError e ∧ loadPortCheck cfg p w = .error e) := by
  unfold loadPortCheck
  by_cases h : cfg.MAXPROG ≤ p
  · exact .inr ⟨.programTooLong, by simp [CoreError], by simp [h]⟩
  · rw [if_neg h]
    cases hd : decode cfg w with
    | ok i => exact .inl ⟨by omega, ⟨i, rfl⟩, rfl⟩
    | error e => cases e <;> exact .inr ⟨_, by simp [CoreError], rfl⟩

/-- A write to IPSEL, as wide as the port (10_state R41). -/
theorem CoreState.applyOp_ipsel (s : CoreState cfg) (v : Nat) (h : s.runState = .idle) :
    s.applyOp (.csrWrite 1 v) = s.writeIpsel (v % 2 ^ indexWidth cfg) := by
  simp only [CoreState.applyOp, CoreState.csrWrite, h, if_true, BitVec.toNat_ofNat]
  rfl

/-- A write to PLEN, as wide as the port (10_state R42). -/
theorem CoreState.applyOp_plen (s : CoreState cfg) (v : Nat) (h : s.runState = .idle) :
    s.applyOp (.csrWrite 2 v) = s.writePlen (v % 2 ^ plenWidth cfg) := by
  simp only [CoreState.applyOp, CoreState.csrWrite, h, if_true, BitVec.toNat_ofNat]
  rfl

/-- A write to CAP.EN (10_state R44). -/
theorem CoreState.applyOp_capEn (s : CoreState cfg) (v : Nat) (h : s.runState = .idle) :
    s.applyOp (.csrWrite 3 v) = { s with capEn := (BitVec.ofNat 1 v).getLsbD 0 } := by
  simp only [CoreState.applyOp, CoreState.csrWrite, h, if_true]
  rfl

/-- A write to CAP.N (10_state R44). -/
theorem CoreState.applyOp_capN (s : CoreState cfg) (v : Nat) (h : s.runState = .idle) :
    s.applyOp (.csrWrite 4 v) = { s with capN := BitVec.ofNat CW v } := by
  simp only [CoreState.applyOp, CoreState.csrWrite, h, if_true]
  rfl

/-- The command CMD = 1 is START (10_state R47). -/
theorem CoreState.applyOp_startOp (s : CoreState cfg) : s.applyOp startOp = s.start := by
  simp [CoreState.applyOp, startOp, CoreState.csrWrite]

/-- Everything a host operation can do: nothing; in IDLE one of the legal writes, a recorded load error, or a START that
enters RUNNING. -/
theorem CoreState.applyOp_cases (s : CoreState cfg) (op : HostOp) :
    (s.applyOp op = s) ∨
    (s.runState = .idle ∧ ∃ i, s.applyOp op = { s with ipsel := i }) ∨
    (s.runState = .idle ∧ ∃ l, s.applyOp op = { s with plen := l }) ∨
    (s.runState = .idle ∧ ∃ b, s.applyOp op = { s with capEn := b }) ∨
    (s.runState = .idle ∧ ∃ n, s.applyOp op = { s with capN := n }) ∨
    (s.runState = .idle ∧ ∃ p w i, p < cfg.MAXPROG ∧ decode cfg w = .ok i ∧
      s.applyOp op = { s with imem := Memory.write p w s.imem }) ∨
    (s.runState = .idle ∧ ∃ e, CoreError e ∧ s.applyOp op = s.recordLoadError e) ∨
    (s.runState = .idle ∧ s.loadErr = false ∧ s.programComplete = true ∧
      s.applyOp op = { s with runState := .running }) := by
  cases op with
  | imemWrite p n =>
    simp only [CoreState.applyOp, CoreState.imemWrite]
    by_cases h : s.runState = .idle
    · rw [if_pos h]
      rcases loadPortCheck_cases p (BitVec.ofNat (4 * cfg.W) n : InstrWord cfg) with
        ⟨hp, ⟨i, hi⟩, hc⟩ | ⟨e, he, hc⟩
      · rw [hc]
        exact .inr (.inr (.inr (.inr (.inr (.inl ⟨h, p, _, i, hp, hi, rfl⟩)))))
      · rw [hc]
        exact .inr (.inr (.inr (.inr (.inr (.inr (.inl ⟨h, e, he, rfl⟩))))))
    · rw [if_neg h]
      exact .inl rfl
  | csrWrite num n =>
    simp only [CoreState.applyOp]
    unfold CoreState.csrWrite
    split
    · split
      · rename_i h
        unfold CoreState.writeIpsel
        split
        · exact .inr (.inl ⟨h, _, rfl⟩)
        · exact .inr (.inr (.inr (.inr (.inr (.inr (.inl ⟨h, _, by simp [CoreError], rfl⟩))))))
      · exact .inl rfl
    · split
      · rename_i h
        unfold CoreState.writePlen
        split
        · exact .inr (.inr (.inl ⟨h, _, rfl⟩))
        · exact .inr (.inr (.inr (.inr (.inr (.inr (.inl ⟨h, _, by simp [CoreError], rfl⟩))))))
      · exact .inl rfl
    · split
      · rename_i h
        exact .inr (.inr (.inr (.inl ⟨h, _, rfl⟩)))
      · exact .inl rfl
    · split
      · rename_i h
        exact .inr (.inr (.inr (.inr (.inl ⟨h, _, rfl⟩))))
      · exact .inl rfl
    · split
      · rcases s.start_cases with ⟨-, h⟩ | ⟨h1, h2, h3, h⟩ | ⟨h1, -, -, h⟩
        · exact .inl h
        · exact .inr (.inr (.inr (.inr (.inr (.inr (.inr ⟨h1, h2, h3, h⟩))))))
        · exact .inr (.inr (.inr (.inr (.inr (.inr (.inl ⟨h1, _, by simp [CoreError], h⟩))))))
      · exact .inl rfl
    · exact .inl rfl

end Sys2Proof.Machine
end

