-- ==== Sys2Proof/Laws/Exec.lean ====
section
/-!
SUPPORT. What the operand forms and the instructions can do: one lemma per shared operation, and one inversion lemma
for exec.
-/

namespace Sys2Proof.Machine

variable {cfg : Config}

/-! ### Register operands -/

@[simp] theorem regIndex?_val (i : Fin cfg.NREG) : regIndex? cfg (i.val : Int) = some i := by
  unfold regIndex?
  rw [dif_pos ⟨by omega, by have := i.isLt; omega⟩]
  simp

/-- An operand names register i exactly when it is i's index. -/
theorem regIndex?_eq_some_iff (n : Int) (i : Fin cfg.NREG) : regIndex? cfg n = some i ↔ n = (i.val : Int) := by
  constructor
  · intro h
    unfold regIndex? at h
    split at h
    · rename_i hn
      cases h
      simp only []
      omega
    · cases h
  · rintro rfl
    exact regIndex?_val i

theorem regIndex?_eq_none_iff (n : Int) : regIndex? cfg n = none ↔ isRegister cfg n = false := by
  unfold regIndex?
  simp only [isRegister, decide_eq_false_iff_not]
  split <;> simp_all

/-- A valid operand is the index of a register. -/
theorem isRegister_iff (n : Int) : isRegister cfg n = true ↔ ∃ i : Fin cfg.NREG, n = (i.val : Int) := by
  constructor
  · intro h
    cases hr : regIndex? cfg n with
    | none => rw [regIndex?_eq_none_iff] at hr; simp [h] at hr
    | some i => exact ⟨i, (regIndex?_eq_some_iff n i).mp hr⟩
  · rintro ⟨i, rfl⟩
    simp [isRegister]

@[simp] theorem isRegister_val (i : Fin cfg.NREG) : isRegister cfg (i.val : Int) = true :=
  (isRegister_iff _).mpr ⟨i, rfl⟩

/-! ### The end of an instruction, and fault entry -/

/-- Write-back, ip increment, count and cap leave the committed state of 10_state R36 and 40_execution_cycle R128. -/
theorem CoreState.retire_eq (s : CoreState cfg) (k : Fin cfg.NREG) (v : Word cfg.W) :
    s.retire k v = s.afterExecuting k v := by
  have hx : (s.retire k v).x = s.regsAfter k v := by
    apply Vector.ext
    intro i hi
    simp only [CoreState.retire_x, CoreState.bumpIp_x, CoreState.setReg_x, CoreState.setReg_ipsel, CoreState.pc,
      CoreState.reg, CoreState.regsAfter, Vector.getElem_ofFn, Vector.getElem_set, Fin.ext_iff, Fin.getElem_fin]
    by_cases h1 : s.ipsel.val = i
    · by_cases h2 : k.val = s.ipsel.val
      · simp [h1, h2]
      · simp [h1]
    · by_cases h2 : k.val = i
      · simp [h1, h2, eq_comm (a := i)]
      · simp [h1, h2, eq_comm (a := i)]
  have hr : (s.retire k v).runState = (s.afterExecuting k v).runState := by
    simp [CoreState.afterExecuting, CoreState.capInForce, and_assoc]
  calc s.retire k v
      = { s with x := (s.retire k v).x, iter := s.iter + 1, runState := (s.retire k v).runState } := rfl
    _ = s.afterExecuting k v := by rw [hx, hr]; rfl

/-- Fault entry leaves the state of 60_exceptions R212. -/
theorem CoreState.takeFault_eq (s : CoreState cfg) (f : FaultCode) : s.takeFault f = s.afterFault f.number := rfl

/-- A register after an executed instruction (10_state R36). -/
theorem CoreState.afterExecuting_getElem (s : CoreState cfg) (k r : Fin cfg.NREG) (v : Word cfg.W) :
    (s.afterExecuting k v).x[r] =
      if r = s.ipsel then (if k = s.ipsel then v else s.x[s.ipsel]) + bv cfg.W 1
      else if r = k then v else s.x[r] := by
  simp [CoreState.afterExecuting, CoreState.regsAfter, bv]

/-! ### The operand forms -/

theorem formRR_valid (fn : OperandFn) (s : CoreState cfg) (a b c : Fin cfg.NREG) :
    formRR fn (a.val : Int) (b.val : Int) (c.val : Int) ⟨cfg, s⟩ = s.afterExecuting c (fn cfg.W s.x[a] s.x[b]) := by
  simp [formRR, CoreState.retire_eq, CoreState.reg]

theorem formRI_valid (fn : OperandFn) (s : CoreState cfg) (a c : Fin cfg.NREG) (b : Int) :
    formRI fn (a.val : Int) b (c.val : Int) ⟨cfg, s⟩ = s.afterExecuting c (fn cfg.W s.x[a] (bv cfg.W b)) := by
  simp [formRI, CoreState.retire_eq, CoreState.reg]

theorem formIR_valid (fn : OperandFn) (s : CoreState cfg) (b c : Fin cfg.NREG) (a : Int) :
    formIR fn a (b.val : Int) (c.val : Int) ⟨cfg, s⟩ = s.afterExecuting c (fn cfg.W (bv cfg.W a) s.x[b]) := by
  simp [formIR, CoreState.retire_eq, CoreState.reg]

theorem formR_valid (s : CoreState cfg) (a c : Fin cfg.NREG) :
    formR (a.val : Int) (c.val : Int) ⟨cfg, s⟩ = s.afterExecuting c s.x[a] := by
  simp [formR, CoreState.retire_eq, CoreState.reg]

theorem formI_valid (s : CoreState cfg) (c : Fin cfg.NREG) (a : Int) :
    formI a (c.val : Int) ⟨cfg, s⟩ = s.afterExecuting c (bv cfg.W a) := by
  simp [formI, CoreState.retire_eq]

theorem formRR_invalid (fn : OperandFn) (s : CoreState cfg) (a b c : Int)
    (h : (isRegister cfg a && isRegister cfg b && isRegister cfg c) = false) :
    formRR fn a b c ⟨cfg, s⟩ = s.afterFault 2 := by
  simp only [formRR]
  split
  · rename_i ha hb hc
    simp only [regIndex?_eq_some_iff] at ha hb hc
    subst ha hb hc
    simp at h
  · rfl

theorem formRI_invalid (fn : OperandFn) (s : CoreState cfg) (a b c : Int)
    (h : (isRegister cfg a && isRegister cfg c) = false) :
    formRI fn a b c ⟨cfg, s⟩ = s.afterFault 2 := by
  simp only [formRI]
  split
  · rename_i ha hc
    simp only [regIndex?_eq_some_iff] at ha hc
    subst ha hc
    simp at h
  · rfl

theorem formIR_invalid (fn : OperandFn) (s : CoreState cfg) (a b c : Int)
    (h : (isRegister cfg b && isRegister cfg c) = false) :
    formIR fn a b c ⟨cfg, s⟩ = s.afterFault 2 := by
  simp only [formIR]
  split
  · rename_i hb hc
    simp only [regIndex?_eq_some_iff] at hb hc
    subst hb hc
    simp at h
  · rfl

theorem formR_invalid (s : CoreState cfg) (a c : Int) (h : (isRegister cfg a && isRegister cfg c) = false) :
    formR a c ⟨cfg, s⟩ = s.afterFault 2 := by
  simp only [formR]
  split
  · rename_i ha hc
    simp only [regIndex?_eq_some_iff] at ha hc
    subst ha hc
    simp at h
  · rfl

theorem formI_invalid (s : CoreState cfg) (a c : Int) (h : isRegister cfg c = false) :
    formI a c ⟨cfg, s⟩ = s.afterFault 2 := by
  simp only [formI]
  split
  · rename_i hc
    simp only [regIndex?_eq_some_iff] at hc
    subst hc
    simp at h
  · rfl

/-! ### Every instruction -/

/-- What one form can do, from its two lemmas: with valid register operands it executes, else it faults. -/
theorem advance_form (s : CoreState cfg) (form : CoreState cfg) (c : Int) (valid : Bool)
    (hv : valid = true → ∃ (k : Fin cfg.NREG) (v : Word cfg.W), (k.val : Int) = c ∧ form = s.afterExecuting k v)
    (hf : valid = false → form = s.afterFault 2) :
    (valid = true ∧ ∃ (k : Fin cfg.NREG) (v : Word cfg.W), (k.val : Int) = c ∧
      State.advance ⟨cfg, s⟩ form = .next ⟨cfg, s.afterExecuting k v⟩) ∨
    (valid = false ∧ State.advance ⟨cfg, s⟩ form = .next ⟨cfg, s.afterFault 2⟩) := by
  cases hb : valid with
  | true =>
    obtain ⟨k, v, hk, hform⟩ := hv hb
    exact .inl ⟨rfl, k, v, hk, by rw [hform]; rfl⟩
  | false => exact .inr ⟨rfl, by rw [hf hb]; rfl⟩

/-- Everything exec can do: with valid register operands the instruction executes, its target being operand c; else it
raises REG_INDEX_OUT_OF_RANGE. -/
theorem exec_cases (i : Instr) (s : CoreState cfg) :
    (i.registersValid cfg = true ∧ ∃ (k : Fin cfg.NREG) (v : Word cfg.W), (k.val : Int) = i.operands.2.2 ∧
      exec i ⟨cfg, s⟩ = .next ⟨cfg, s.afterExecuting k v⟩) ∨
    (i.registersValid cfg = false ∧ exec i ⟨cfg, s⟩ = .next ⟨cfg, s.afterFault 2⟩) := by
  have rr : ∀ (fn : OperandFn) (a b c : Int), (isRegister cfg a && isRegister cfg b && isRegister cfg c) = true →
      ∃ (k : Fin cfg.NREG) (v : Word cfg.W), (k.val : Int) = c ∧ formRR fn a b c ⟨cfg, s⟩ = s.afterExecuting k v := by
    intro fn a b c h
    simp only [Bool.and_eq_true, isRegister_iff] at h
    obtain ⟨⟨⟨ia, rfl⟩, ib, rfl⟩, ic, rfl⟩ := h
    exact ⟨ic, _, rfl, formRR_valid fn s ia ib ic⟩
  have ri : ∀ (fn : OperandFn) (a b c : Int), (isRegister cfg a && isRegister cfg c) = true →
      ∃ (k : Fin cfg.NREG) (v : Word cfg.W), (k.val : Int) = c ∧ formRI fn a b c ⟨cfg, s⟩ = s.afterExecuting k v := by
    intro fn a b c h
    simp only [Bool.and_eq_true, isRegister_iff] at h
    obtain ⟨⟨ia, rfl⟩, ic, rfl⟩ := h
    exact ⟨ic, _, rfl, formRI_valid fn s ia ic b⟩
  have ir : ∀ (fn : OperandFn) (a b c : Int), (isRegister cfg b && isRegister cfg c) = true →
      ∃ (k : Fin cfg.NREG) (v : Word cfg.W), (k.val : Int) = c ∧ formIR fn a b c ⟨cfg, s⟩ = s.afterExecuting k v := by
    intro fn a b c h
    simp only [Bool.and_eq_true, isRegister_iff] at h
    obtain ⟨⟨ib, rfl⟩, ic, rfl⟩ := h
    exact ⟨ic, _, rfl, formIR_valid fn s ib ic a⟩
  have r1 : ∀ (a c : Int), (isRegister cfg a && isRegister cfg c) = true →
      ∃ (k : Fin cfg.NREG) (v : Word cfg.W), (k.val : Int) = c ∧ formR a c ⟨cfg, s⟩ = s.afterExecuting k v := by
    intro a c h
    simp only [Bool.and_eq_true, isRegister_iff] at h
    obtain ⟨⟨ia, rfl⟩, ic, rfl⟩ := h
    exact ⟨ic, _, rfl, formR_valid s ia ic⟩
  have i1 : ∀ (a c : Int), isRegister cfg c = true →
      ∃ (k : Fin cfg.NREG) (v : Word cfg.W), (k.val : Int) = c ∧ formI a c ⟨cfg, s⟩ = s.afterExecuting k v := by
    intro a c h
    obtain ⟨ic, rfl⟩ := (isRegister_iff c).mp h
    exact ⟨ic, _, rfl, formI_valid s ic a⟩
  cases i with
  | addr a b c => exact advance_form s _ c _ (rr fnAdd a b c) (formRR_invalid fnAdd s a b c)
  | addi a b c => exact advance_form s _ c _ (ri fnAdd a b c) (formRI_invalid fnAdd s a b c)
  | mulr a b c => exact advance_form s _ c _ (rr fnMul a b c) (formRR_invalid fnMul s a b c)
  | muli a b c => exact advance_form s _ c _ (ri fnMul a b c) (formRI_invalid fnMul s a b c)
  | banr a b c => exact advance_form s _ c _ (rr fnAnd a b c) (formRR_invalid fnAnd s a b c)
  | bani a b c => exact advance_form s _ c _ (ri fnAnd a b c) (formRI_invalid fnAnd s a b c)
  | borr a b c => exact advance_form s _ c _ (rr fnOr a b c) (formRR_invalid fnOr s a b c)
  | bori a b c => exact advance_form s _ c _ (ri fnOr a b c) (formRI_invalid fnOr s a b c)
  | setr a b c => exact advance_form s _ c _ (r1 a c) (formR_invalid s a c)
  | seti a b c => exact advance_form s _ c _ (i1 a c) (formI_invalid s a c)
  | gtir a b c => exact advance_form s _ c _ (ir fnGt a b c) (formIR_invalid fnGt s a b c)
  | gtri a b c => exact advance_form s _ c _ (ri fnGt a b c) (formRI_invalid fnGt s a b c)
  | gtrr a b c => exact advance_form s _ c _ (rr fnGt a b c) (formRR_invalid fnGt s a b c)
  | eqir a b c => exact advance_form s _ c _ (ir fnEq a b c) (formIR_invalid fnEq s a b c)
  | eqri a b c => exact advance_form s _ c _ (ri fnEq a b c) (formRI_invalid fnEq s a b c)
  | eqrr a b c => exact advance_form s _ c _ (rr fnEq a b c) (formRR_invalid fnEq s a b c)

end Sys2Proof.Machine
end

