-- ==== Sys2Proof/Laws/Step.lean ====
section
/-!
SUPPORT. What the fetch and a step can do: one inversion lemma each.
-/

namespace Sys2Proof.Machine

variable {cfg : Config}

/-- The bounds test as the two comparisons of 40_execution_cycle R122. -/
theorem pcInProgram_iff (s : CoreState cfg) :
    s.pcInProgram = true ↔ (0 ≤ s.x[s.ipsel].toInt ∧ s.x[s.ipsel].toInt < s.plen.val) := by
  unfold CoreState.pcInProgram
  rw [decide_eq_true_eq]
  rfl

/-- Everything the fetch can find, in the order of 60_exceptions R217. -/
theorem fetch_cases (s : CoreState cfg) :
    (s.pcInProgram = false ∧ s.fetch = .outside) ∨
    (s.pcInProgram = true ∧ Memory.read s.imem s.pc.toNat = none ∧ s.fetch = .fault .unwrittenInstruction) ∨
    (∃ w, s.pcInProgram = true ∧ Memory.read s.imem s.pc.toNat = some w ∧ reservedBits cfg w ≠ 0 ∧
      s.fetch = .fault .illegalOpcode) ∨
    (∃ w i, s.pcInProgram = true ∧ Memory.read s.imem s.pc.toNat = some w ∧ reservedBits cfg w = 0 ∧
      readWord cfg w = .ok i ∧ s.fetch = .instr i) := by
  cases hp : s.pcInProgram with
  | false => exact .inl ⟨rfl, by simp [CoreState.fetch, hp]⟩
  | true =>
    cases hm : Memory.read s.imem s.pc.toNat with
    | none => exact .inr (.inl ⟨rfl, rfl, by simp [CoreState.fetch, hp, hm]⟩)
    | some w =>
      by_cases hr : reservedBits cfg w = 0
      · exact .inr (.inr (.inr ⟨w, _, rfl, rfl, hr, readWord_of_clear cfg w hr, by
          simp only [CoreState.fetch, hp, hm, readWord_of_clear cfg w hr, if_true]⟩))
      · exact .inr (.inr (.inl ⟨w, rfl, rfl, hr, by
          simp only [CoreState.fetch, hp, hm, readWord_of_reserved cfg w hr, if_true, Illegal.fault]⟩))

/-- Everything a step can do: nothing outside RUNNING; else the bounds halt, a fault with one of the three codes, or the
execution of the fetched instruction. -/
theorem step_cases (s : CoreState cfg) :
    (s.runState ≠ .running ∧ step ⟨cfg, s⟩ = .next ⟨cfg, s⟩) ∨
    (s.runState = .running ∧ s.fetch = .outside ∧ step ⟨cfg, s⟩ = .next ⟨cfg, s.haltNormal⟩) ∨
    (∃ code : BitVec 4, (code = 1 ∨ code = 2 ∨ code = 3) ∧ s.runState = .running ∧
      step ⟨cfg, s⟩ = .next ⟨cfg, s.afterFault code⟩) ∨
    (∃ (i : Instr) (k : Fin cfg.NREG) (v : Word cfg.W), s.runState = .running ∧ s.fetch = .instr i ∧
      i.registersValid cfg = true ∧ (k.val : Int) = i.operands.2.2 ∧
      step ⟨cfg, s⟩ = .next ⟨cfg, s.afterExecuting k v⟩) := by
  by_cases hr : s.runState = .running
  · cases hf : s.fetch with
    | outside => exact .inr (.inl ⟨hr, rfl, by simp [step, hr, hf, State.advance]⟩)
    | fault f =>
      refine .inr (.inr (.inl ⟨f.number, by cases f <;> simp [FaultCode.number], hr, ?_⟩))
      simp [step, hr, hf, State.advance, CoreState.takeFault_eq]
    | instr i =>
      have hs : step ⟨cfg, s⟩ = exec i ⟨cfg, s⟩ := by simp [step, hr, hf]
      rcases exec_cases i s with ⟨hv, k, v, hk, he⟩ | ⟨-, he⟩
      · exact .inr (.inr (.inr ⟨i, k, v, hr, rfl, hv, hk, by rw [hs, he]⟩))
      · exact .inr (.inr (.inl ⟨2, by simp, hr, by rw [hs, he]⟩))
  · refine .inl ⟨hr, ?_⟩
    cases h : s.runState <;> simp_all [step]

/-- A step outside RUNNING leaves the machine as it is. -/
theorem step_of_not_running (s : CoreState cfg) (h : s.runState ≠ .running) :
    step ⟨cfg, s⟩ = .next ⟨cfg, s⟩ := by
  rcases step_cases s with ⟨-, hs⟩ | ⟨hr, -⟩ | ⟨_, -, hr, -⟩ | ⟨_, _, _, hr, -⟩
  · exact hs
  all_goals exact absurd hr h

end Sys2Proof.Machine
end

