-- ==== Sys2Proof/Laws/Datapath.lean ====
section
/-!
SUPPORT. The parts of the reference datapath: its read ports, its write port and its comparators, against the registers
they stand for.
-/

namespace Sys2Proof.Machine

variable {cfg : Config}

/-- The lane of a valid register index has that index as its unsigned value too (30_encoding R98). -/
theorem toNat_of_toInt_index (v : Word cfg.W) (i : Fin cfg.NREG) (h : v.toInt = i.val) : v.toNat = i.val := by
  have h1 := BitVec.toInt_eq_toNat_cond v
  have h2 := v.isLt
  have hi := i.isLt
  split at h1 <;> omega

/-- A read port driven by the lane of register i gives x[i] (10_state R31). -/
theorem CoreState.readPort_of_index (s : CoreState cfg) (v : Word cfg.W) (i : Fin cfg.NREG) (h : v.toInt = i.val) :
    s.readPort (portIndex cfg v) = some s.x[i] := by
  have hv : validIndex cfg v = true := by rw [validIndex_eq, h]; exact isRegister_val i
  have hp : (portIndex cfg v).toNat = i.val := by rw [portIndex_toNat v hv, toNat_of_toInt_index v i h]
  unfold CoreState.readPort
  rw [dif_pos (by rw [hp]; exact i.isLt)]
  congr 1
  show s.x[(⟨_, _⟩ : Fin cfg.NREG)] = s.x[i]
  congr 1
  rw [Fin.ext_iff]
  exact hp

/-- One edge with the write port at register k commits the registers of 10_state R36. -/
theorem CoreState.commitEdge_of_index (s : CoreState cfg) (v : Word cfg.W) (k : Fin cfg.NREG) (h : v.toInt = k.val)
    (d : Word cfg.W) :
    s.commitEdge { en := true, idx := portIndex cfg v, data := d } = s.regsAfter k d := by
  have hv : validIndex cfg v = true := by rw [validIndex_eq, h]; exact isRegister_val k
  have hp : (portIndex cfg v).toNat = k.val := by rw [portIndex_toNat v hv, toNat_of_toInt_index v k h]
  unfold CoreState.commitEdge CoreState.regsAfter
  congr 1
  funext i
  simp only [CoreState.ipNext, hp, Bool.true_and, decide_eq_true_eq, CoreState.ripData, Fin.ext_iff,
    eq_comm (a := k.val) (b := i.val)]

/-- The unsigned bounds comparison of the datapath is the signed one of the step (20_memory R63). -/
theorem pcInProgram_iff_ripData (s : CoreState cfg) : s.pcInProgram = true ↔ s.ripData.toNat < s.plen.val := by
  rw [pcInProgram_iff]
  show (0 ≤ s.ripData.toInt ∧ s.ripData.toInt < _) ↔ _
  have h1 := BitVec.toInt_eq_toNat_cond s.ripData
  have h2 := s.ripData.isLt
  have hm := cfg.MAXPROG_le
  have hl := s.plen.isLt
  have hp : (2 : Nat) ^ cfg.W = 2 * 2 ^ (cfg.W - 1) := by
    rw [← pow_succ', Nat.sub_add_cancel (by have := cfg.W_ge; omega)]
  split at h1 <;> omega

end Sys2Proof.Machine
end

