-- ==== Sys2Proof/Laws/Functions.lean ====
section
/-!
SUPPORT. What the functions of two operand values do, in terms of W-bit arithmetic.
-/

namespace Sys2Proof.Machine

theorem fnAdd_eq (w : Nat) (p q : Word w) : fnAdd w p q = p + q := by
  simp [fnAdd, BitVec.ofNat_add]

theorem fnMul_eq (w : Nat) (p q : Word w) : fnMul w p q = p * q := by
  simp [fnMul, BitVec.ofNat_mul]

theorem bv_add (w : Nat) (m n : Int) : bv w (m + n) = bv w m + bv w n := BitVec.ofInt_add m n

theorem bv_mul (w : Nat) (m n : Int) : bv w (m * n) = bv w m * bv w n := BitVec.ofInt_mul m n

/-- bv_W depends on the integer modulo 2^W only (00_scope R9). -/
theorem bv_add_two_pow (w : Nat) (n : Int) : bv w (n + 2 ^ w) = bv w n := by
  apply BitVec.eq_of_toNat_eq
  simp [bv, BitVec.toNat_ofInt]

theorem bv_neg_one (w : Nat) : bv w (-1) = BitVec.allOnes w := by
  rw [bv, show (-1 : Int) = -((1 : Nat) : Int) from rfl, BitVec.ofInt_neg, BitVec.ofInt_natCast]
  exact BitVec.neg_one_eq_allOnes

theorem outcomeWord_eq (w : Nat) (h : Bool) : outcomeWord w h = (BitVec.ofBool h).setWidth w := by
  apply BitVec.eq_of_toNat_eq
  cases h <;> simp [outcomeWord]

/-- ADD of the signed values (41_arithmetic R150). -/
theorem fnAdd_signed (w : Nat) (p q : Word w) : fnAdd w p q = bv w (p.toInt + q.toInt) := by
  rw [fnAdd_eq, bv_add]; simp [bv]

/-- MUL of the signed values (41_arithmetic R150). -/
theorem fnMul_signed (w : Nat) (p q : Word w) : fnMul w p q = bv w (p.toInt * q.toInt) := by
  rw [fnMul_eq, bv_mul]; simp [bv]

theorem fnAdd_bv (w : Nat) (p : Word w) (n : Int) : fnAdd w p (bv w n) = bv w (p.toInt + n) := by
  rw [fnAdd_eq, bv_add]; simp [bv]

theorem fnMul_bv (w : Nat) (p : Word w) (n : Int) : fnMul w p (bv w n) = bv w (p.toInt * n) := by
  rw [fnMul_eq, bv_mul]; simp [bv]

/-- GT as a choice between the words 1 and 0 (44_comparison R180). -/
theorem fnGt_eq (w : Nat) (p q : Word w) : fnGt w p q = if p.toInt > q.toInt then bv w 1 else bv w 0 := by
  simp only [fnGt, outcomeWord]
  by_cases h : p.toInt > q.toInt <;> simp [h, bv]

/-- EQ as a choice between the words 1 and 0 (44_comparison R180). -/
theorem fnEq_eq (w : Nat) (p q : Word w) : fnEq w p q = if p.toInt = q.toInt then bv w 1 else bv w 0 := by
  simp only [fnEq, outcomeWord, BitVec.toInt_inj]
  by_cases h : p = q <;> simp [h, bv]

end Sys2Proof.Machine
end

