-- ==== Sys2Proof/Laws/Memory.lean ====
section
/-!
SUPPORT. The instruction memory: read after write, and the canonical form is kept by every operation.
-/

namespace Sys2Proof.Machine

theorem Memory.read_nil {n : Nat} (p : Nat) : Memory.read ([] : Memory n) p = none := rfl

theorem Memory.read_cons {n : Nat} (q : Nat) (u : BitVec n) (m : Memory n) (p : Nat) :
    Memory.read ((q, u) :: m) p = if q = p then some u else Memory.read m p := rfl

/-- What a write can do: the written position reads as the written word, every other position as before. -/
theorem Memory.read_write {n : Nat} (p : Nat) (v : BitVec n) (m : Memory n) (q : Nat) :
    Memory.read (Memory.write p v m) q = if q = p then some v else Memory.read m q := by
  induction m with
  | nil => simp [Memory.write, Memory.read, eq_comm]
  | cons e m ih =>
    obtain ⟨r, u⟩ := e
    simp only [Memory.write]
    split
    · simp only [Memory.read_cons, eq_comm (a := p)]
    · split
      · subst_vars
        simp only [Memory.read_cons, eq_comm (a := r)]
        split <;> rfl
      · simp only [Memory.read_cons, ih]
        split <;> split <;> simp_all

theorem Memory.wfFrom_write {n : Nat} (size p : Nat) (v : BitVec n) (m : Memory n) (lo : Nat)
    (h : Memory.wfFrom size lo m = true) (hlo : lo ≤ p) (hp : p < size) :
    Memory.wfFrom size lo (Memory.write p v m) = true := by
  induction m generalizing lo with
  | nil => simp [Memory.write, Memory.wfFrom, hlo, hp]
  | cons e m ih =>
    obtain ⟨r, u⟩ := e
    simp only [Memory.wfFrom, Bool.and_eq_true, decide_eq_true_eq] at h
    obtain ⟨⟨hr, hs⟩, hm⟩ := h
    simp only [Memory.write]
    split
    · rename_i hpr
      simp only [Memory.wfFrom, Bool.and_eq_true, decide_eq_true_eq]
      exact ⟨⟨hlo, hp⟩, ⟨by omega, hs⟩, hm⟩
    · split
      · rename_i hpr
        simp only [Memory.wfFrom, Bool.and_eq_true, decide_eq_true_eq]
        exact ⟨⟨hlo, hp⟩, hpr ▸ hm⟩
      · simp only [Memory.wfFrom, Bool.and_eq_true, decide_eq_true_eq]
        exact ⟨⟨hr, hs⟩, ih (r + 1) hm (by omega)⟩

/-- A write within the address space keeps the canonical form. -/
theorem Memory.wf_write {n : Nat} (size p : Nat) (v : BitVec n) (m : Memory n)
    (h : Memory.wf size m = true) (hp : p < size) : Memory.wf size (Memory.write p v m) = true :=
  Memory.wfFrom_write size p v m 0 h (Nat.zero_le p) hp

/-- Reset leaves the instruction memory in canonical form. -/
theorem reset_imem_wf (cfg : Config) : Memory.wf cfg.MAXPROG (CoreState.reset cfg).imem = true := rfl

/-- A canonical memory has nothing at a position below its first entry. -/
theorem Memory.read_lt_of_wfFrom {n : Nat} (size p : Nat) (m : Memory n) (lo : Nat)
    (h : Memory.wfFrom size lo m = true) (hp : p < lo) : Memory.read m p = none := by
  induction m generalizing lo with
  | nil => rfl
  | cons e m ih =>
    obtain ⟨r, u⟩ := e
    simp only [Memory.wfFrom, Bool.and_eq_true, decide_eq_true_eq] at h
    rw [Memory.read_cons, if_neg (by omega)]
    exact ih (r + 1) h.2 (by omega)

/-- Equal reads make equal canonical memories. -/
theorem Memory.ext_of_wfFrom {n : Nat} (size : Nat) (m m' : Memory n) (lo : Nat)
    (h : Memory.wfFrom size lo m = true) (h' : Memory.wfFrom size lo m' = true)
    (hr : ∀ p, Memory.read m p = Memory.read m' p) : m = m' := by
  induction m generalizing m' lo with
  | nil =>
    cases m' with
    | nil => rfl
    | cons e m' => have := hr e.1; simp [Memory.read] at this
  | cons e m ih =>
    obtain ⟨r, u⟩ := e
    simp only [Memory.wfFrom, Bool.and_eq_true, decide_eq_true_eq] at h
    cases m' with
    | nil => have := hr r; simp [Memory.read] at this
    | cons e' m' =>
      obtain ⟨r', u'⟩ := e'
      simp only [Memory.wfFrom, Bool.and_eq_true, decide_eq_true_eq] at h'
      have hrr : r = r' := by
        rcases Nat.lt_trichotomy r r' with hlt | heq | hgt
        · have := hr r
          rw [Memory.read_cons, if_pos rfl, Memory.read_cons, if_neg (by omega),
            Memory.read_lt_of_wfFrom size r m' (r' + 1) h'.2 (by omega)] at this
          cases this
        · exact heq
        · have := hr r'
          rw [Memory.read_cons, if_neg (by omega), Memory.read_lt_of_wfFrom size r' m (r + 1) h.2 (by omega),
            Memory.read_cons, if_pos rfl] at this
          cases this
      subst hrr
      have hu : u = u' := by
        have := hr r
        simpa [Memory.read_cons] using this
      subst hu
      have hm : m = m' := by
        apply ih m' (r + 1) h.2 h'.2
        intro p
        by_cases hp : r = p
        · subst hp
          rw [Memory.read_lt_of_wfFrom size r m (r + 1) h.2 (by omega),
            Memory.read_lt_of_wfFrom size r m' (r + 1) h'.2 (by omega)]
        · have := hr p
          simpa [Memory.read_cons, hp] using this
      rw [hm]

end Sys2Proof.Machine
end

