-- ==== Sys2Proof/Laws/Loader.lean ====
section
/-!
SUPPORT. The text loader and the load sequence: what an accepted line or an accepted list of lines is, what the
load-port writes of a code sequence leave, and the decimal numerals of the disassembler.
-/

namespace Sys2Proof.Machine

variable {cfg : Config}

/-! ### Accepted lines -/

/-- A literal operand is in the W-bit signed range (30_encoding R87). -/
theorem isLiteral_of_literalOf (tok : List Char) (n : Int) (h : literalOf cfg tok = some n) :
    isLiteral cfg n = true := by
  unfold literalOf at h
  split at h
  · split at h
    · cases h; assumption
    · cases h
  · cases h

/-- Everything an accepted instruction line is: four tokens, a mnemonic and three literals, at a position of IMEM, with
valid register operands (30_encoding R85 to R90). -/
theorem instrOfLine_cases (pos : Nat) (line : List Char) (i : Instr) (h : instrOfLine cfg pos line = .ok i) :
    ∃ m ta tb tc op a b c, tokensFrom [] line = [m, ta, tb, tc] ∧ opcodeOfMnemonic m = some op ∧
      literalOf cfg ta = some a ∧ literalOf cfg tb = some b ∧ literalOf cfg tc = some c ∧ pos < cfg.MAXPROG ∧
      i = instrOfOpcode op a b c ∧ i.registersValid cfg = true := by
  unfold instrOfLine at h
  split at h
  · cases h
  · rename_i m ops ht
    split at h
    · cases h
    · rename_i op hm
      split at h
      · rename_i ta tb tc
        split at h
        · rename_i a b c ha hb hc
          split at h
          · cases h
          · rename_i hp
            split at h
            · rename_i hv
              cases h
              exact ⟨m, ta, tb, tc, op, a, b, c, ht, hm, ha, hb, hc, by omega, rfl, hv⟩
            · cases h
        · cases h
      · cases h

/-- The instruction of an accepted line is well formed. -/
theorem wellFormed_of_instrOfLine (pos : Nat) (line : List Char) (i : Instr) (h : instrOfLine cfg pos line = .ok i) :
    pos < cfg.MAXPROG ∧ i.wellFormed cfg = true := by
  obtain ⟨m, ta, tb, tc, op, a, b, c, -, -, ha, hb, hc, hp, rfl, hv⟩ := instrOfLine_cases pos line i h
  refine ⟨hp, wellFormed_of_registersValid cfg _ hv ?_ ?_ ?_⟩ <;> rw [instrOfOpcode_operands]
  exacts [isLiteral_of_literalOf _ _ ha, isLiteral_of_literalOf _ _ hb, isLiteral_of_literalOf _ _ hc]

/-- Accepted lines fit the instruction memory and give well-formed instructions. -/
theorem codeOfLines_cases (lines : List (List Char)) (pos n : Nat) (code : List Instr) 
    (hpos : pos ≤ cfg.MAXPROG) (h : codeOfLines cfg pos n lines = .ok code) :
    pos + code.length ≤ cfg.MAXPROG ∧ ∀ i ∈ code, i.wellFormed cfg = true := by
  induction lines generalizing pos n code with
  | nil => cases h; simpa using hpos
  | cons l ls ih =>
    simp only [codeOfLines] at h
    split at h
    · exact ih _ _ _ hpos h
    · split at h
      · cases h
      · rename_i i hi
        obtain ⟨h1, h2⟩ := wellFormed_of_instrOfLine _ _ _ hi
        split at h
        · cases h
        · rename_i code' hc
          cases h
          obtain ⟨h3, h4⟩ := ih _ _ _ (by omega) hc
          refine ⟨by simp; omega, ?_⟩
          simp only [List.mem_cons]
          rintro j (rfl | hj)
          · exact h2
          · exact h4 j hj

/-! ### The load sequence -/

/-- Each write of `codeOps` stores its word: afterwards position pos + k reads as the word of the k-th instruction, and
nothing else has changed (70_reset_and_hazards R243). -/
theorem applyOps_codeOps (code : List Instr) (pos : Nat) (s : CoreState cfg) (hs : s.runState = .idle) 
    (hw : ∀ i ∈ code, decode cfg (encode cfg i) = .ok i) (hp : pos + code.length ≤ cfg.MAXPROG) :
    ∃ m, s.applyOps (codeOps cfg pos code) = { s with imem := m } ∧
      ∀ k, Memory.read m k =
        if k < pos then Memory.read s.imem k
        else match code[k - pos]? with
          | some i => some (encode cfg i)
          | none => Memory.read s.imem k := by
  induction code generalizing pos s with
  | nil => exact ⟨s.imem, rfl, by simp⟩
  | cons i code ih =>
    have e : s.applyOp (.imemWrite pos (encode cfg i).toNat) = { s with imem := s.imem.write pos (encode cfg i) } := by
      simp only [List.length_cons] at hp
      have : ¬ cfg.MAXPROG ≤ pos := by omega
      simp [CoreState.applyOp, CoreState.imemWrite, hs, loadPortCheck, this, hw i (by simp)]
    obtain ⟨m, hm, hr⟩ := ih (pos + 1) { s with imem := s.imem.write pos (encode cfg i) } hs
      (fun j hj => hw j (by simp [hj])) (by simp at hp; omega)
    refine ⟨m, ?_, ?_⟩
    · simp only [codeOps, CoreState.applyOps, List.foldl_cons, e]
      exact hm
    · intro k
      rw [hr]
      simp only [Memory.read_write]
      rcases Nat.lt_trichotomy k pos with h | h | h
      · rw [if_pos (by omega), if_pos h, if_neg (by omega)]
      · subst h; simp
      · rw [if_neg (by omega), if_neg (by omega), if_neg (by omega)]
        obtain ⟨d, rfl⟩ := Nat.exists_eq_add_of_lt h
        have e1 : pos + d + 1 - pos = d + 1 := by omega
        have e2 : pos + d + 1 - (pos + 1) = d := by omega
        rw [e1, e2, List.getElem?_cons_succ]

/-! ### Numerals and tokens -/

/-- Digits are read most significant first. -/
theorem digitsFrom_eq (l : List Char) (acc : Nat) (h : ∀ c ∈ l, c.isDigit = true) :
    digitsFrom acc l = some (Nat.ofDigitChars 10 l acc) := by
  induction l generalizing acc with
  | nil => rfl
  | cons c l ih =>
    have hc := h c (by simp)
    simp only [Char.isDigit, Bool.and_eq_true, decide_eq_true_eq, UInt32.le_iff_toNat_le] at hc
    have : digitValue c = some (c.toNat - 48) := by
      unfold digitValue; rw [if_pos]; exact hc
    simp only [digitsFrom, this]
    rw [ih _ (fun d hd => h d (by simp [hd]))]
    rfl

/-- A decimal numeral reads back. -/
theorem naturalOf_toDigits (n : Nat) : naturalOf (Nat.toDigits 10 n) = some n := by
  unfold naturalOf
  rw [if_neg (by simp [Nat.toDigits_ne_nil]),
    digitsFrom_eq _ _ (fun c hc => Nat.isDigit_of_mem_toDigits (by omega) (by omega) hc),
    Nat.ofDigitChars_toDigits (by omega) (by omega)]

/-- The numeral of an integer reads back (30_encoding R87, R102). -/
theorem integerOf_decimalOf (n : Int) : integerOf (decimalOf n) = some n := by
  unfold decimalOf
  split
  · simp only [integerOf, naturalOf_toDigits]
    have hz : -(n.natAbs : Int) = n := by omega
    rw [hz]
  · have hd : ∀ c ∈ Nat.toDigits 10 n.natAbs, c.isDigit = true :=
      fun c hc => Nat.isDigit_of_mem_toDigits (by omega) (by omega) hc
    have hn := naturalOf_toDigits n.natAbs
    revert hd hn
    cases hh : Nat.toDigits 10 n.natAbs with
    | nil => exact absurd hh Nat.toDigits_ne_nil
    | cons c l =>
      intro hd hn
      have : c ≠ '-' := by rintro rfl; have := hd '-' (by simp); revert this; decide
      unfold integerOf
      split
      · rename_i h; cases h; exact absurd rfl this
      · rw [hn]; simp; omega

/-- A numeral holds no whitespace. -/
theorem isBlankChar_of_mem_decimalOf (n : Int) : ∀ c ∈ decimalOf n, isBlankChar c = false := by
  have hd : ∀ c ∈ Nat.toDigits 10 n.natAbs, c.isDigit = true :=
      fun c hc => Nat.isDigit_of_mem_toDigits (by omega) (by omega) hc
  have : ∀ c ∈ Nat.toDigits 10 n.natAbs, isBlankChar c = false := by
    intro c hc
    have := hd c hc
    by_contra hb
    simp only [isBlankChar, Bool.not_eq_false, Bool.or_eq_true, decide_eq_true_eq] at hb
    rcases hb with rfl | rfl <;> revert this <;> decide
  unfold decimalOf
  split
  · intro c hc
    simp only [List.mem_cons] at hc
    rcases hc with rfl | hc
    · decide
    · exact this c hc
  · exact this

/-- The mnemonic of a number has that number (30_encoding R94). -/
theorem opcodeOfMnemonic_getD (op : BitVec 4) : opcodeOfMnemonic (mnemonicTable.getD op.toNat []) = some op := by
  revert op
  decide

/-- A mnemonic is a token: not empty, and without whitespace. -/
theorem mnemonicTable_getD (op : BitVec 4) :
    mnemonicTable.getD op.toNat [] ≠ [] ∧ ∀ c ∈ mnemonicTable.getD op.toNat [], isBlankChar c = false := by
  obtain ⟨⟨n, hn⟩⟩ := op
  have hn' : n < 16 := hn
  interval_cases n <;> simp [mnemonicTable, isBlankChar]

/-- Characters that are no whitespace join the current token. -/
theorem tokensFrom_append (l : List Char) (cur rest : List Char) (h : ∀ c ∈ l, isBlankChar c = false) :
    tokensFrom cur (l ++ rest) = tokensFrom (l.reverse ++ cur) rest := by
  induction l generalizing cur with
  | nil => rfl
  | cons c l ih =>
    simp only [List.cons_append, tokensFrom, h c (by simp)]
    rw [if_neg (by simp), ih _ (fun d hd => h d (by simp [hd]))]
    simp

/-- A token ends at a blank. -/
theorem tokensFrom_cons_blank (l rest : List Char) (h : ∀ c ∈ l, isBlankChar c = false) (hl : l ≠ []) :
    tokensFrom [] (l ++ ' ' :: rest) = l :: tokensFrom [] rest := by
  rw [tokensFrom_append l _ _ h]
  simp [tokensFrom, isBlankChar, hl]

/-- A numeral is not empty. -/
theorem decimalOf_ne_nil (n : Int) : decimalOf n ≠ [] := by
  unfold decimalOf; split
  · simp
  · exact Nat.toDigits_ne_nil

end Sys2Proof.Machine
end

