-- ==== Sys2Proof/Laws/PerInstr.lean ====
section
/-!
SUPPORT. Statements about every instruction as syntax, one lemma per constructor.
-/

/-- The word of any instruction has its number and the lanes bv_W(a), bv_W(b), bv_W(c) (30_encoding R105). -/
theorem Sys2Proof.Machine.encodedAs_encode (cfg : Sys2Proof.Config) (i : Sys2Proof.Instr) :
    Sys2Proof.Machine.EncodedAs cfg i i.opcode.toNat i.operands.1 i.operands.2.1 i.operands.2.2 := by
  refine ⟨?_, ?_, ?_, ?_⟩ <;>
    simp only [Sys2Proof.encode, Sys2Proof.opl_packLanes, Sys2Proof.laneA_packLanes, Sys2Proof.laneB_packLanes,
      Sys2Proof.laneC_packLanes]
  apply BitVec.eq_of_toNat_eq
  simp [BitVec.toNat_setWidth]

namespace Sys2Proof.Laws.EncodedLanes

/-- The word of an instruction has no reserved bit set and the instruction's opcode number, and, when the instruction
is well formed, its lanes A, B, C stand for the operands (30_encoding R92, R93, R97, R105). -/
def Statement (i : Instr) : Prop :=
  ∀ cfg : Config,
    reservedBits cfg (encode cfg i) = 0 ∧ opcodeOf cfg (encode cfg i) = i.opcode ∧
    (i.wellFormed cfg = true →
      (laneA cfg (encode cfg i)).toInt = i.operands.1 ∧ (laneB cfg (encode cfg i)).toInt = i.operands.2.1 ∧
      (laneC cfg (encode cfg i)).toInt = i.operands.2.2)

/-- The operands of a well-formed instruction are W-bit signed literals. -/
theorem literals_of_wellFormed (cfg : Config) (i : Instr) (h : i.wellFormed cfg = true) :
    isLiteral cfg i.operands.1 = true ∧ isLiteral cfg i.operands.2.1 = true ∧
    isLiteral cfg i.operands.2.2 = true := by
  cases i <;> simp only [Instr.wellFormed, Bool.and_eq_true] at h <;> obtain ⟨⟨ha, hb⟩, hc⟩ := h <;>
    refine ⟨?_, ?_, ?_⟩ <;> first | assumption | exact isLiteral_of_isRegister cfg _ (by assumption)

theorem of_any (i : Instr) : Statement i := by
  intro cfg
  refine ⟨by simp [reservedBits, encode, opcode_setWidth_shift], ?_, ?_⟩
  · rw [opcodeOf, encode, opl_packLanes, opcode_setWidth_setWidth]
  · intro h
    obtain ⟨ha, hb, hc⟩ := literals_of_wellFormed cfg i h
    simp only [encode, laneA_packLanes, laneB_packLanes, laneC_packLanes]
    exact ⟨bv_toInt_of_isLiteral cfg _ ha, bv_toInt_of_isLiteral cfg _ hb, bv_toInt_of_isLiteral cfg _ hc⟩

theorem addr (a b c : Int) : Statement (.addr a b c) := of_any _
theorem addi (a b c : Int) : Statement (.addi a b c) := of_any _
theorem mulr (a b c : Int) : Statement (.mulr a b c) := of_any _
theorem muli (a b c : Int) : Statement (.muli a b c) := of_any _
theorem banr (a b c : Int) : Statement (.banr a b c) := of_any _
theorem bani (a b c : Int) : Statement (.bani a b c) := of_any _
theorem borr (a b c : Int) : Statement (.borr a b c) := of_any _
theorem bori (a b c : Int) : Statement (.bori a b c) := of_any _
theorem setr (a b c : Int) : Statement (.setr a b c) := of_any _
theorem seti (a b c : Int) : Statement (.seti a b c) := of_any _
theorem gtir (a b c : Int) : Statement (.gtir a b c) := of_any _
theorem gtri (a b c : Int) : Statement (.gtri a b c) := of_any _
theorem gtrr (a b c : Int) : Statement (.gtrr a b c) := of_any _
theorem eqir (a b c : Int) : Statement (.eqir a b c) := of_any _
theorem eqri (a b c : Int) : Statement (.eqri a b c) := of_any _
theorem eqrr (a b c : Int) : Statement (.eqrr a b c) := of_any _

end Sys2Proof.Laws.EncodedLanes
end

