-- ==== Sys2Proof/Tests/Slice0.lean ====
section
/-!
SUPPORT. Tests of the model on single small cases, and a witness for the hypotheses of every statement that has some.

Expected results come from spec/95_test_vectors.md, cited by the vector's name, or by hand from the rule cited.
-/

namespace Sys2Proof.Tests

open Sys2Proof Sys2Proof.Machine

/-! ### Helpers -/

/-- The reference configuration. -/
abbrev ref : Config := Config.reference

/-- A 64-bit core with the reference register count and capacity. -/
def wide : Config :=
  { W := 64, NREG := 6, MAXPROG := 1024
    W_ge := by decide, NREG_pos := by decide, NREG_le := by decide, MAXPROG_le := by decide }

/-- A core with room for two instructions. -/
def two : Config :=
  { W := 32, NREG := 6, MAXPROG := 2
    W_ge := by decide, NREG_pos := by decide, NREG_le := by decide, MAXPROG_le := by decide }

/-- A core with one register. -/
def single : Config :=
  { W := 32, NREG := 1, MAXPROG := 2
    W_ge := by decide, NREG_pos := by decide, NREG_le := by decide, MAXPROG_le := by decide }

/-- An instruction memory with the given words from position `pos` on. -/
def memOf (cfg : Config) (pos : Nat) : List Nat → Memory (4 * cfg.W)
  | [] => []
  | w :: ws => (pos, BitVec.ofNat _ w) :: memOf cfg (pos + 1) ws

/-- A running reference core: IPSEL, the first registers (the others 0), PLEN, and the words from position 0 on. -/
def ready (ip : Fin 6) (xs : List Int) (plen : Fin 1025) (words : List Nat) : CoreState ref :=
  { CoreState.reset ref with
    x := Vector.ofFn fun i => bv 32 (xs.getD i.val 0)
    ipsel := ip
    imem := memOf ref 0 words
    plen := plen
    runState := .running }

/-- What a test looks at: the registers, ITER and STATE of the next state. -/
def seen : Host.Outcome State Fault Refusal → Option (List Int × Nat × RunState)
  | .next t => some (t.core.snapshot, t.core.iter.toNat, t.core.runState)
  | .fault _ => none
  | .refused _ => none

/-- What a fault test looks at: the registers, ITER, STATE, FAULT_CODE and FAULT_PC. -/
structure FaultView where
  regs : List Int
  iter : Nat
  state : RunState
  code : Nat
  pc : Int
deriving DecidableEq

/-- The view of the next state in a fault test. -/
def seenFault : Host.Outcome State Fault Refusal → Option FaultView
  | .next t =>
    some ⟨t.core.snapshot, t.core.iter.toNat, t.core.runState, t.core.faultCode.toNat, t.core.faultPc.toInt⟩
  | .fault _ => none
  | .refused _ => none

/-- The single-instruction set-up of 95_test_vectors section 0: IPSEL = 5, PLEN = 1, one word at position 0. -/
def one (xs : List Int) (w : Nat) : Option (List Int × Nat × RunState) := seen (step ⟨ref, ready 5 xs 1 [w]⟩)

/-- The same for the fault vectors of section 3a. -/
def oneFault (plen : Fin 1025) (xs : List Int) (words : List Nat) :
    Option FaultView :=
  seenFault (step ⟨ref, ready 5 xs plen words⟩)

/-- What a load test looks at: LOAD_ERR, LOAD_CODE, IPSEL, PLEN, the written positions, STATE. -/
structure LoadView where
  err : Bool
  code : Nat
  ipsel : Nat
  plen : Nat
  written : List Nat
  state : RunState
deriving DecidableEq

/-- The view of the core after host operations from reset. -/
def loaded (ops : List HostOp) : LoadView :=
  let c := (CoreState.reset ref).applyOps ops
  ⟨c.loadErr, c.loadCode.toNat, c.ipsel.val, c.plen.val, c.imem.map Prod.fst, c.runState⟩

/-- The loader on a text with the marker `#ip`. -/
def textOk (text : String) : Option Program :=
  match loadText ref .standard text.toList with
  | .ok p => some p
  | .error _ => none

/-- The loader's failure on a text. -/
def textError (text : String) : Option LoadFailure :=
  match loadText ref .standard text.toList with
  | .ok _ => none
  | .error f => some f

/-! ### Well-formedness: each check refuses an ill-formed term (30_encoding R87, R89) -/

theorem test_wellFormed_addr :
    (Instr.addr (-1) 0 0).wellFormed ref = false ∧
    (Instr.addr 6 5 5).wellFormed ref = false ∧
    (Instr.addr 0 (-1) 0).wellFormed ref = false ∧
    (Instr.addr 5 6 5).wellFormed ref = false ∧
    (Instr.addr 0 0 (-1)).wellFormed ref = false ∧
    (Instr.addr 5 5 6).wellFormed ref = false ∧
    (Instr.addr 0 0 0).wellFormed ref = true ∧
    (Instr.addr 5 5 5).wellFormed ref = true := by decide

theorem test_wellFormed_addi :
    (Instr.addi (-1) (-2147483648) 0).wellFormed ref = false ∧
    (Instr.addi 6 2147483647 5).wellFormed ref = false ∧
    (Instr.addi 0 (-2147483649) 0).wellFormed ref = false ∧
    (Instr.addi 5 2147483648 5).wellFormed ref = false ∧
    (Instr.addi 0 (-2147483648) (-1)).wellFormed ref = false ∧
    (Instr.addi 5 2147483647 6).wellFormed ref = false ∧
    (Instr.addi 0 (-2147483648) 0).wellFormed ref = true ∧
    (Instr.addi 5 2147483647 5).wellFormed ref = true := by decide

theorem test_wellFormed_mulr :
    (Instr.mulr (-1) 0 0).wellFormed ref = false ∧
    (Instr.mulr 6 5 5).wellFormed ref = false ∧
    (Instr.mulr 0 (-1) 0).wellFormed ref = false ∧
    (Instr.mulr 5 6 5).wellFormed ref = false ∧
    (Instr.mulr 0 0 (-1)).wellFormed ref = false ∧
    (Instr.mulr 5 5 6).wellFormed ref = false ∧
    (Instr.mulr 0 0 0).wellFormed ref = true ∧
    (Instr.mulr 5 5 5).wellFormed ref = true := by decide

theorem test_wellFormed_muli :
    (Instr.muli (-1) (-2147483648) 0).wellFormed ref = false ∧
    (Instr.muli 6 2147483647 5).wellFormed ref = false ∧
    (Instr.muli 0 (-2147483649) 0).wellFormed ref = false ∧
    (Instr.muli 5 2147483648 5).wellFormed ref = false ∧
    (Instr.muli 0 (-2147483648) (-1)).wellFormed ref = false ∧
    (Instr.muli 5 2147483647 6).wellFormed ref = false ∧
    (Instr.muli 0 (-2147483648) 0).wellFormed ref = true ∧
    (Instr.muli 5 2147483647 5).wellFormed ref = true := by decide

theorem test_wellFormed_banr :
    (Instr.banr (-1) 0 0).wellFormed ref = false ∧
    (Instr.banr 6 5 5).wellFormed ref = false ∧
    (Instr.banr 0 (-1) 0).wellFormed ref = false ∧
    (Instr.banr 5 6 5).wellFormed ref = false ∧
    (Instr.banr 0 0 (-1)).wellFormed ref = false ∧
    (Instr.banr 5 5 6).wellFormed ref = false ∧
    (Instr.banr 0 0 0).wellFormed ref = true ∧
    (Instr.banr 5 5 5).wellFormed ref = true := by decide

theorem test_wellFormed_bani :
    (Instr.bani (-1) (-2147483648) 0).wellFormed ref = false ∧
    (Instr.bani 6 2147483647 5).wellFormed ref = false ∧
    (Instr.bani 0 (-2147483649) 0).wellFormed ref = false ∧
    (Instr.bani 5 2147483648 5).wellFormed ref = false ∧
    (Instr.bani 0 (-2147483648) (-1)).wellFormed ref = false ∧
    (Instr.bani 5 2147483647 6).wellFormed ref = false ∧
    (Instr.bani 0 (-2147483648) 0).wellFormed ref = true ∧
    (Instr.bani 5 2147483647 5).wellFormed ref = true := by decide

theorem test_wellFormed_borr :
    (Instr.borr (-1) 0 0).wellFormed ref = false ∧
    (Instr.borr 6 5 5).wellFormed ref = false ∧
    (Instr.borr 0 (-1) 0).wellFormed ref = false ∧
    (Instr.borr 5 6 5).wellFormed ref = false ∧
    (Instr.borr 0 0 (-1)).wellFormed ref = false ∧
    (Instr.borr 5 5 6).wellFormed ref = false ∧
    (Instr.borr 0 0 0).wellFormed ref = true ∧
    (Instr.borr 5 5 5).wellFormed ref = true := by decide

theorem test_wellFormed_bori :
    (Instr.bori (-1) (-2147483648) 0).wellFormed ref = false ∧
    (Instr.bori 6 2147483647 5).wellFormed ref = false ∧
    (Instr.bori 0 (-2147483649) 0).wellFormed ref = false ∧
    (Instr.bori 5 2147483648 5).wellFormed ref = false ∧
    (Instr.bori 0 (-2147483648) (-1)).wellFormed ref = false ∧
    (Instr.bori 5 2147483647 6).wellFormed ref = false ∧
    (Instr.bori 0 (-2147483648) 0).wellFormed ref = true ∧
    (Instr.bori 5 2147483647 5).wellFormed ref = true := by decide

theorem test_wellFormed_setr :
    (Instr.setr (-1) (-2147483648) 0).wellFormed ref = false ∧
    (Instr.setr 6 2147483647 5).wellFormed ref = false ∧
    (Instr.setr 0 (-2147483649) 0).wellFormed ref = false ∧
    (Instr.setr 5 2147483648 5).wellFormed ref = false ∧
    (Instr.setr 0 (-2147483648) (-1)).wellFormed ref = false ∧
    (Instr.setr 5 2147483647 6).wellFormed ref = false ∧
    (Instr.setr 0 (-2147483648) 0).wellFormed ref = true ∧
    (Instr.setr 5 2147483647 5).wellFormed ref = true := by decide

theorem test_wellFormed_seti :
    (Instr.seti (-2147483649) (-2147483648) 0).wellFormed ref = false ∧
    (Instr.seti 2147483648 2147483647 5).wellFormed ref = false ∧
    (Instr.seti (-2147483648) (-2147483649) 0).wellFormed ref = false ∧
    (Instr.seti 2147483647 2147483648 5).wellFormed ref = false ∧
    (Instr.seti (-2147483648) (-2147483648) (-1)).wellFormed ref = false ∧
    (Instr.seti 2147483647 2147483647 6).wellFormed ref = false ∧
    (Instr.seti (-2147483648) (-2147483648) 0).wellFormed ref = true ∧
    (Instr.seti 2147483647 2147483647 5).wellFormed ref = true := by decide

theorem test_wellFormed_gtir :
    (Instr.gtir (-2147483649) 0 0).wellFormed ref = false ∧
    (Instr.gtir 2147483648 5 5).wellFormed ref = false ∧
    (Instr.gtir (-2147483648) (-1) 0).wellFormed ref = false ∧
    (Instr.gtir 2147483647 6 5).wellFormed ref = false ∧
    (Instr.gtir (-2147483648) 0 (-1)).wellFormed ref = false ∧
    (Instr.gtir 2147483647 5 6).wellFormed ref = false ∧
    (Instr.gtir (-2147483648) 0 0).wellFormed ref = true ∧
    (Instr.gtir 2147483647 5 5).wellFormed ref = true := by decide

theorem test_wellFormed_gtri :
    (Instr.gtri (-1) (-2147483648) 0).wellFormed ref = false ∧
    (Instr.gtri 6 2147483647 5).wellFormed ref = false ∧
    (Instr.gtri 0 (-2147483649) 0).wellFormed ref = false ∧
    (Instr.gtri 5 2147483648 5).wellFormed ref = false ∧
    (Instr.gtri 0 (-2147483648) (-1)).wellFormed ref = false ∧
    (Instr.gtri 5 2147483647 6).wellFormed ref = false ∧
    (Instr.gtri 0 (-2147483648) 0).wellFormed ref = true ∧
    (Instr.gtri 5 2147483647 5).wellFormed ref = true := by decide

theorem test_wellFormed_gtrr :
    (Instr.gtrr (-1) 0 0).wellFormed ref = false ∧
    (Instr.gtrr 6 5 5).wellFormed ref = false ∧
    (Instr.gtrr 0 (-1) 0).wellFormed ref = false ∧
    (Instr.gtrr 5 6 5).wellFormed ref = false ∧
    (Instr.gtrr 0 0 (-1)).wellFormed ref = false ∧
    (Instr.gtrr 5 5 6).wellFormed ref = false ∧
    (Instr.gtrr 0 0 0).wellFormed ref = true ∧
    (Instr.gtrr 5 5 5).wellFormed ref = true := by decide

theorem test_wellFormed_eqir :
    (Instr.eqir (-2147483649) 0 0).wellFormed ref = false ∧
    (Instr.eqir 2147483648 5 5).wellFormed ref = false ∧
    (Instr.eqir (-2147483648) (-1) 0).wellFormed ref = false ∧
    (Instr.eqir 2147483647 6 5).wellFormed ref = false ∧
    (Instr.eqir (-2147483648) 0 (-1)).wellFormed ref = false ∧
    (Instr.eqir 2147483647 5 6).wellFormed ref = false ∧
    (Instr.eqir (-2147483648) 0 0).wellFormed ref = true ∧
    (Instr.eqir 2147483647 5 5).wellFormed ref = true := by decide

theorem test_wellFormed_eqri :
    (Instr.eqri (-1) (-2147483648) 0).wellFormed ref = false ∧
    (Instr.eqri 6 2147483647 5).wellFormed ref = false ∧
    (Instr.eqri 0 (-2147483649) 0).wellFormed ref = false ∧
    (Instr.eqri 5 2147483648 5).wellFormed ref = false ∧
    (Instr.eqri 0 (-2147483648) (-1)).wellFormed ref = false ∧
    (Instr.eqri 5 2147483647 6).wellFormed ref = false ∧
    (Instr.eqri 0 (-2147483648) 0).wellFormed ref = true ∧
    (Instr.eqri 5 2147483647 5).wellFormed ref = true := by decide

theorem test_wellFormed_eqrr :
    (Instr.eqrr (-1) 0 0).wellFormed ref = false ∧
    (Instr.eqrr 6 5 5).wellFormed ref = false ∧
    (Instr.eqrr 0 (-1) 0).wellFormed ref = false ∧
    (Instr.eqrr 5 6 5).wellFormed ref = false ∧
    (Instr.eqrr 0 0 (-1)).wellFormed ref = false ∧
    (Instr.eqrr 5 5 6).wellFormed ref = false ∧
    (Instr.eqrr 0 0 0).wellFormed ref = true ∧
    (Instr.eqrr 5 5 5).wellFormed ref = true := by decide

/-! ### Decoding and encoding of words written out in the spec (95_test_vectors sections 2, 3d) -/

/-- V1: `addr 0 1 2`. -/
theorem test_decode_addr :
    decodeTableWord 128 0x00000002000000010000000000000000 = some (.addr 0 1 2) ∧
    encode ref (.addr 0 1 2) = BitVec.ofNat _ 0x00000002000000010000000000000000 := by decide

/-- V-E2: `addi 1 -1 1`. -/
theorem test_decode_addi :
    decodeTableWord 128 0x00000001FFFFFFFF0000000100000001 = some (.addi 1 (-1) 1) ∧
    encode ref (.addi 1 (-1) 1) = BitVec.ofNat _ 0x00000001FFFFFFFF0000000100000001 := by decide

/-- V8: `mulr 0 1 2`. -/
theorem test_decode_mulr :
    decodeTableWord 128 0x00000002000000010000000000000002 = some (.mulr 0 1 2) ∧
    encode ref (.mulr 0 1 2) = BitVec.ofNat _ 0x00000002000000010000000000000002 := by decide

/-- V13: `muli 0 6 3`. -/
theorem test_decode_muli :
    decodeTableWord 128 0x00000003000000060000000000000003 = some (.muli 0 6 3) ∧
    encode ref (.muli 0 6 3) = BitVec.ofNat _ 0x00000003000000060000000000000003 := by decide

/-- V17: `banr 0 1 2`. -/
theorem test_decode_banr :
    decodeTableWord 128 0x00000002000000010000000000000004 = some (.banr 0 1 2) ∧
    encode ref (.banr 0 1 2) = BitVec.ofNat _ 0x00000002000000010000000000000004 := by decide

/-- V20: `bani 0 255 1`. -/
theorem test_decode_bani :
    decodeTableWord 128 0x00000001000000FF0000000000000005 = some (.bani 0 255 1) ∧
    encode ref (.bani 0 255 1) = BitVec.ofNat _ 0x00000001000000FF0000000000000005 := by decide

/-- V24: `borr 0 1 2`. -/
theorem test_decode_borr :
    decodeTableWord 128 0x00000002000000010000000000000006 = some (.borr 0 1 2) ∧
    encode ref (.borr 0 1 2) = BitVec.ofNat _ 0x00000002000000010000000000000006 := by decide

/-- V-E6: `bori 0 -256 3`. -/
theorem test_decode_bori :
    decodeTableWord 128 0x00000003FFFFFF000000000000000007 = some (.bori 0 (-256) 3) ∧
    encode ref (.bori 0 (-256) 3) = BitVec.ofNat _ 0x00000003FFFFFF000000000000000007 := by decide

/-- V30: `setr 3 99 0`. -/
theorem test_decode_setr :
    decodeTableWord 128 0x00000000000000630000000300000008 = some (.setr 3 99 0) ∧
    encode ref (.setr 3 99 0) = BitVec.ofNat _ 0x00000000000000630000000300000008 := by decide

/-- V35: `seti -2147483648 123 0`. -/
theorem test_decode_seti :
    decodeTableWord 128 0x000000000000007B8000000000000009 = some (.seti (-2147483648) 123 0) ∧
    encode ref (.seti (-2147483648) 123 0) = BitVec.ofNat _ 0x000000000000007B8000000000000009 := by decide

/-- V-E5: `gtir -2147483648 5 0`. -/
theorem test_decode_gtir :
    decodeTableWord 128 0x0000000000000005800000000000000A = some (.gtir (-2147483648) 5 0) ∧
    encode ref (.gtir (-2147483648) 5 0) = BitVec.ofNat _ 0x0000000000000005800000000000000A := by decide

/-- V42: `gtri 1 -2147483648 2`. -/
theorem test_decode_gtri :
    decodeTableWord 128 0x0000000280000000000000010000000B = some (.gtri 1 (-2147483648) 2) ∧
    encode ref (.gtri 1 (-2147483648) 2) = BitVec.ofNat _ 0x0000000280000000000000010000000B := by decide

/-- V44: `gtrr 0 1 2`. -/
theorem test_decode_gtrr :
    decodeTableWord 128 0x0000000200000001000000000000000C = some (.gtrr 0 1 2) ∧
    encode ref (.gtrr 0 1 2) = BitVec.ofNat _ 0x0000000200000001000000000000000C := by decide

/-- V48: `eqir -1 3 4`. -/
theorem test_decode_eqir :
    decodeTableWord 128 0x0000000400000003FFFFFFFF0000000D = some (.eqir (-1) 3 4) ∧
    encode ref (.eqir (-1) 3 4) = BitVec.ofNat _ 0x0000000400000003FFFFFFFF0000000D := by decide

/-- V52: `eqri 1 -9 1`. -/
theorem test_decode_eqri :
    decodeTableWord 128 0x00000001FFFFFFF7000000010000000E = some (.eqri 1 (-9) 1) ∧
    encode ref (.eqri 1 (-9) 1) = BitVec.ofNat _ 0x00000001FFFFFFF7000000010000000E := by decide

/-- V-E4: `eqrr 5 4 3`. -/
theorem test_decode_eqrr :
    decodeTableWord 128 0x0000000300000004000000050000000F = some (.eqrr 5 4 3) ∧
    encode ref (.eqrr 5 4 3) = BitVec.ofNat _ 0x0000000300000004000000050000000F := by decide

/-- 95_test_vectors section 3d: `addi 1 -1 1` at W = 64. -/
theorem test_decode_wide :
    (match decode wide (BitVec.ofNat _ 0x0000000000000001FFFFFFFFFFFFFFFF00000000000000010000000000000001) with
      | .ok i => some i
      | .error _ => none) = some (.addi 1 (-1) 1) := by decide

/-- V-F1, V-F2, V-F7: a reserved bit, also before a bad A. V-F3, V-F4, V-F5: a bad A, B, C. -/
theorem test_decode_illegal :
    decodeTableWord 128 0x10 = none ∧ decodeTableWord 128 0x1F = none ∧
    (match decode ref (BitVec.ofNat _ 0x00000000000000000000000900000020) with
      | .ok _ => none
      | .error e => some e) = some Illegal.reservedBits ∧
    decodeTableWord 128 0x00000000000000000000000600000000 = none ∧
    decodeTableWord 128 0x00000000FFFFFFFF0000000000000000 = none ∧
    decodeTableWord 128 0x00000006000000000000000100000009 = none := by decide

/-- 20_memory R65: byte k of a transfer holds bits [8k+7:8k] of V5's word. -/
theorem test_bytes :
    (wordToBytes ref (BitVec.ofNat _ 0x00000001FFFFFFF90000000000000001)).map BitVec.toNat =
      [1, 0, 0, 0, 0, 0, 0, 0, 0xF9, 0xFF, 0xFF, 0xFF, 1, 0, 0, 0] := by decide

/-! ### One step of each instruction (95_test_vectors section 2) -/

/-- V2. -/
theorem test_addr_wraps :
    one [2147483647, 1] 0x00000002000000010000000000000000 =
      some ([2147483647, 1, -2147483648, 0, 0, 1], 1, .running) := by decide

/-- V4. -/
theorem test_addr_in_place :
    one [21] 0x0 =
      some ([42, 0, 0, 0, 0, 1], 1, .running) := by decide

/-- V5. -/
theorem test_addi_negative :
    one [5] 0x00000001FFFFFFF90000000000000001 =
      some ([5, -2, 0, 0, 0, 1], 1, .running) := by decide

/-- V6. -/
theorem test_addi_wraps :
    one [-2147483648] 0x00000001FFFFFFFF0000000000000001 =
      some ([-2147483648, 2147483647, 0, 0, 0, 1], 1, .running) := by decide

/-- V10. -/
theorem test_mulr_wraps :
    one [65536] 0x00000001000000000000000000000002 =
      some ([65536, 0, 0, 0, 0, 1], 1, .running) := by decide

/-- V8. -/
theorem test_mulr_negative :
    one [-3, 4] 0x00000002000000010000000000000002 =
      some ([-3, 4, -12, 0, 0, 1], 1, .running) := by decide

/-- V13. -/
theorem test_muli_basic :
    one [7] 0x00000003000000060000000000000003 =
      some ([7, 0, 0, 42, 0, 1], 1, .running) := by decide

/-- V15. -/
theorem test_muli_negates :
    one [-2147483648] 0x00000000FFFFFFFF0000000000000003 =
      some ([-2147483648, 0, 0, 0, 0, 1], 1, .running) := by decide

/-- V17. -/
theorem test_banr_basic :
    one [12, 10] 0x00000002000000010000000000000004 =
      some ([12, 10, 8, 0, 0, 1], 1, .running) := by decide

/-- V18. -/
theorem test_banr_negative :
    one [-256, 65536] 0x00000002000000010000000000000004 =
      some ([-256, 65536, 65536, 0, 0, 1], 1, .running) := by decide

/-- V20. -/
theorem test_bani_low_byte :
    one [305419896] 0x00000001000000FF0000000000000005 =
      some ([305419896, 120, 0, 0, 0, 1], 1, .running) := by decide

/-- V23. -/
theorem test_bani_all_ones :
    one [-77] 0x00000001FFFFFFFF0000000000000005 =
      some ([-77, -77, 0, 0, 0, 1], 1, .running) := by decide

/-- V24. -/
theorem test_borr_basic :
    one [12, 10] 0x00000002000000010000000000000006 =
      some ([12, 10, 14, 0, 0, 1], 1, .running) := by decide

/-- V25. -/
theorem test_borr_negative :
    one [-8, 3] 0x00000002000000010000000000000006 =
      some ([-8, 3, -5, 0, 0, 1], 1, .running) := by decide

/-- V27. -/
theorem test_bori_negative :
    one [65536] 0x00000003FFFFFF000000000000000007 =
      some ([65536, 0, 0, -256, 0, 1], 1, .running) := by decide

/-- V28. -/
theorem test_bori_zero :
    one [5] 0x00000001000000000000000000000007 =
      some ([5, 5, 0, 0, 0, 1], 1, .running) := by decide

/-- V30. -/
theorem test_setr_unused_b :
    one [0, 0, 0, 9] 0x00000000000000630000000300000008 =
      some ([9, 0, 0, 9, 0, 1], 1, .running) := by decide

/-- V31. -/
theorem test_setr_in_place :
    one [0, 0, -4] 0x00000002FFFFFFF90000000200000008 =
      some ([0, 0, -4, 0, 0, 1], 1, .running) := by decide

/-- V33. -/
theorem test_seti_negative :
    one [] 0x0000000200000000FFFFFFFB00000009 =
      some ([0, 0, -5, 0, 0, 1], 1, .running) := by decide

/-- V35. -/
theorem test_seti_smallest :
    one [8] 0x000000000000007B8000000000000009 =
      some ([-2147483648, 0, 0, 0, 0, 1], 1, .running) := by decide

/-- V37. -/
theorem test_gtir_equal :
    one [0, 0, 3] 0x0000000000000002000000030000000A =
      some ([0, 0, 3, 0, 0, 1], 1, .running) := by decide

/-- V38. -/
theorem test_gtir_signed :
    one [0, 0, -1] 0x0000000000000002000000000000000A =
      some ([1, 0, -1, 0, 0, 1], 1, .running) := by decide

/-- V41. -/
theorem test_gtri_signed :
    one [0, -1] 0x0000000200000001000000010000000B =
      some ([0, -1, 0, 0, 0, 1], 1, .running) := by decide

/-- V42. -/
theorem test_gtri_extremes :
    one [0, 2147483647] 0x0000000280000000000000010000000B =
      some ([0, 2147483647, 1, 0, 0, 1], 1, .running) := by decide

/-- V45. -/
theorem test_gtrr_signed :
    one [0, -5] 0x0000000200000001000000000000000C =
      some ([0, -5, 1, 0, 0, 1], 1, .running) := by decide

/-- V46. -/
theorem test_gtrr_false :
    one [-5, 0, 7] 0x0000000200000001000000000000000C =
      some ([-5, 0, 0, 0, 0, 1], 1, .running) := by decide

/-- V48. -/
theorem test_eqir_negative :
    one [0, 0, 0, -1] 0x0000000400000003FFFFFFFF0000000D =
      some ([0, 0, 0, -1, 1, 1], 1, .running) := by decide

/-- V49. -/
theorem test_eqir_unequal :
    one [0, 0, 0, 2, 7] 0x0000000400000003000000010000000D =
      some ([0, 0, 0, 2, 0, 1], 1, .running) := by decide

/-- V51. -/
theorem test_eqri_unequal :
    one [0, 4] 0x0000000200000005000000010000000E =
      some ([0, 4, 0, 0, 0, 1], 1, .running) := by decide

/-- V52. -/
theorem test_eqri_in_place :
    one [0, -9] 0x00000001FFFFFFF7000000010000000E =
      some ([0, 1, 0, 0, 0, 1], 1, .running) := by decide

/-- V53. -/
theorem test_eqrr_unequal :
    one [4, 5] 0x0000000200000001000000000000000F =
      some ([4, 5, 0, 0, 0, 1], 1, .running) := by decide

/-- V55. -/
theorem test_eqrr_in_place :
    one [1, 1] 0x0000000000000001000000000000000F =
      some ([1, 1, 0, 0, 0, 1], 1, .running) := by decide

/-- V2 at W = 64: no overflow there, 2147483647 + 1 = 2147483648. -/
theorem test_addr_wide :
    seen (step ((⟨wide, { CoreState.reset wide with
      x := Vector.ofFn fun i => bv 64 ([2147483647, 1].getD i.val 0), ipsel := ⟨5, by decide⟩ }⟩ : State).withFetchWord 256
      0x0000000000000002000000000000000100000000000000000000000000000000)) =
      some ([2147483647, 1, 2147483648, 0, 0, 1], 1, .running) := by decide

/-! ### Control transfer, halts and the cap (95_test_vectors sections 3, 4) -/

/-- V-C1, V-C2, V-C3: c = IPSEL, the next pc is v + 1. -/
theorem test_jumps :
    one [] 0x00000005000000000000000900000009 = some ([0, 0, 0, 0, 0, 10], 1, .running) ∧
    one [] 0x0000000500000000FFFFFFFE00000009 = some ([0, 0, 0, 0, 0, -1], 1, .running) ∧
    one [] 0x00000005000000007FFFFFFF00000009 = some ([0, 0, 0, 0, 0, -2147483648], 1, .running) := by decide

/-- V-C4, V-C5: the ip register as an operand is the pc of this step. -/
theorem test_ip_operand :
    one [] 0x00000005FFFFFFFF000000050000000B = some ([0, 0, 0, 0, 0, 2], 1, .running) ∧
    one [] 0x00000005000000050000000500000000 = some ([0, 0, 0, 0, 0, 1], 1, .running) := by decide

/-- P6 step 3: `setr 0 0 3` with IPSEL = 0 copies pc = 5. -/
theorem test_setr_reads_pc :
    seen (step ⟨ref, ready 0 [5, 0, 7] 6 [0, 0, 0, 0, 0, 0x00000003000000000000000000000008]⟩) =
      some ([6, 0, 7, 5, 0, 0], 1, .running) := by decide

/-- V-C7: with the cap at 1 the first instruction is the last. -/
theorem test_cap_one :
    seen (step ⟨ref, { ready 5 [] 1 [0x0000000500000000FFFFFFFF00000009] with capEn := true, capN := 1 }⟩) =
      some ([0, 0, 0, 0, 0, 0], 1, .haltedCapped) := by decide

/-- P1 with cap 2, its second step: the cap is reached and the pc leaves the program, HALTED_CAPPED. -/
theorem test_cap_before_bounds :
    seen (step ⟨ref, { ready 1 [5, 1] 2 [0x00000000000000000000000500000009, 0x00000000000000010000000000000001] with
      capEn := true, capN := 2, iter := 1 }⟩) = some ([6, 2, 0, 0, 0, 0], 2, .haltedCapped) := by decide

/-- 10_state R44: CAP.N = 0 is no cap even with CAP.EN = 1, and CAP.N without CAP.EN is none. -/
theorem test_cap_off :
    seen (step ⟨ref, { ready 5 [] 1 [0] with capEn := true }⟩) = some ([0, 0, 0, 0, 0, 1], 1, .running) ∧
    seen (step ⟨ref, { ready 5 [] 1 [0] with capN := 1 }⟩) = some ([0, 0, 0, 0, 0, 1], 1, .running) := by decide

/-- 40_execution_cycle R122: pc = PLEN, and pc = -1, halt and change nothing else. -/
theorem test_bounds :
    seen (step ⟨ref, ready 5 [3, 0, 0, 0, 0, 1] 1 [0]⟩) = some ([3, 0, 0, 0, 0, 1], 0, .haltedNormal) ∧
    seen (step ⟨ref, ready 5 [0, 0, 0, 0, 0, -1] 1 [0]⟩) = some ([0, 0, 0, 0, 0, -1], 0, .haltedNormal) := by decide

/-! ### Faults (95_test_vectors section 3a) -/

/-- V-F1, V-F2, V-F7: ILLEGAL_OPCODE. -/
theorem test_fault_opcode :
    oneFault 1 [] [0x10] = some ⟨[0, 0, 0, 0, 0, 0], 0, .faulted, 1, 0⟩ ∧
    oneFault 1 [] [0x1F] = some ⟨[0, 0, 0, 0, 0, 0], 0, .faulted, 1, 0⟩ ∧
    oneFault 1 [] [0x00000000000000000000000900000020] = some ⟨[0, 0, 0, 0, 0, 0], 0, .faulted, 1, 0⟩ := by decide

/-- V-F3, V-F4, V-F5, and V-F6's second step: REG_INDEX_OUT_OF_RANGE. -/
theorem test_fault_index :
    oneFault 1 [] [0x00000000000000000000000600000000] = some ⟨[0, 0, 0, 0, 0, 0], 0, .faulted, 2, 0⟩ ∧
    oneFault 1 [] [0x00000000FFFFFFFF0000000000000000] = some ⟨[0, 0, 0, 0, 0, 0], 0, .faulted, 2, 0⟩ ∧
    oneFault 1 [] [0x00000006000000000000000100000009] = some ⟨[0, 0, 0, 0, 0, 0], 0, .faulted, 2, 0⟩ ∧
    oneFault 2 [7, 0, 0, 0, 0, 1] [0, 0x00000009000000000000000000000000] =
      some ⟨[7, 0, 0, 0, 0, 1], 0, .faulted, 2, 1⟩ := by decide

/-- V-F8's second step: UNWRITTEN_INSTRUCTION at position 1. -/
theorem test_fault_unwritten :
    oneFault 2 [1, 0, 0, 0, 0, 1] [0] = some ⟨[1, 0, 0, 0, 0, 1], 0, .faulted, 3, 1⟩ := by decide

/-- V-F9, V-F10: an unused lane and an immediate lane are no index. V-F11's second step: a bad word beyond PLEN. -/
theorem test_no_fault :
    oneFault 1 [] [0x00000000000000630000000400000009] = some ⟨[4, 0, 0, 0, 0, 1], 1, .running, 0, 0⟩ ∧
    oneFault 1 [] [0x0000000100000000FFFFFFF90000000A] = some ⟨[0, 0, 0, 0, 0, 1], 1, .running, 0, 0⟩ ∧
    oneFault 1 [4, 0, 0, 0, 0, 1] [0, 0x10] = some ⟨[4, 0, 0, 0, 0, 1], 0, .haltedNormal, 0, 0⟩ := by decide

/-- 60_exceptions R220: a step in FAULTED changes nothing. -/
theorem test_faulted_stays :
    seenFault (step ⟨ref, (ready 5 [] 1 [0x10]).afterFault 1⟩) = some ⟨[0, 0, 0, 0, 0, 0], 0, .faulted, 1, 0⟩ := by
  decide

/-! ### The host's side (95_test_vectors section 3b) -/

/-- V-L1 to V-L7. -/
theorem test_load_errors :
    loaded [.imemWrite 0 0x100] = ⟨true, 8, 1, 0, [], .idle⟩ ∧
    loaded [.imemWrite 0 0x00000000000000000000000600000000] = ⟨true, 6, 1, 0, [], .idle⟩ ∧
    loaded [.imemWrite 0 0x00000001000000060000000000000008] = ⟨false, 0, 1, 0, [0], .idle⟩ ∧
    loaded [.imemWrite 1024 0] = ⟨true, 7, 1, 0, [], .idle⟩ ∧
    loaded [.csrWrite 2 1025] = ⟨true, 7, 1, 0, [], .idle⟩ ∧
    loaded [.csrWrite 1 6] = ⟨true, 4, 1, 0, [], .idle⟩ ∧
    loaded [.csrWrite 1 7, .imemWrite 0 0x00000009000000000000000000000000] = ⟨true, 4, 1, 0, [], .idle⟩ := by decide

/-- V-L8 to V-L11. -/
theorem test_start :
    loaded [.imemWrite 0 0x00000000000000000000000100000009, .csrWrite 2 2, startOp] =
      ⟨true, 9, 1, 2, [0], .idle⟩ ∧
    loaded [.imemWrite 0 0x00000000000000000000000600000000, .imemWrite 0 0x00000000000000000000000100000009,
      .csrWrite 2 1, startOp] = ⟨true, 6, 1, 1, [0], .idle⟩ ∧
    loaded [.csrWrite 1 3, .imemWrite 0 0x00000000000000000000000100000009, .csrWrite 2 1, startOp, .csrWrite 1 0] =
      ⟨false, 0, 3, 1, [0], .running⟩ ∧
    loaded [.csrWrite 2 0, startOp] = ⟨false, 0, 1, 0, [], .running⟩ := by decide

/-- 10_state R43: STATUS of a faulted core with code 2, and of an idle core with load error 9. -/
theorem test_status :
    ((ready 5 [] 1 []).afterFault 2).status = 0x204 ∧
    ((CoreState.reset ref).recordLoadError .incompleteProgram).status = 0x98 := by decide

/-- 70_reset_and_hazards R240, R245: reset over START; the cycle of START takes no step, the next one does. -/
theorem test_cycles :
    seen (cycles [⟨true, some startOp⟩] State.reset) = some ([0, 0, 0, 0, 0, 0], 0, .idle) ∧
    seen (cycles [⟨false, some startOp⟩] State.reset) = some ([0, 0, 0, 0, 0, 0], 0, .running) ∧
    seen (cycles [⟨false, some startOp⟩, ⟨false, none⟩] State.reset) =
      some ([0, 0, 0, 0, 0, 0], 0, .haltedNormal) := by decide

/-- The placed word runs as the first instruction after reset. -/
theorem test_withFetchWord :
    seen (step (State.reset.withFetchWord 128 0x0000000200000000FFFFFFFB00000009)) =
      some ([0, 1, -5, 0, 0, 0], 1, .running) := by decide

/-! ### The text loader and the disassembler (95_test_vectors section 3c) -/

/-- V-T1, V-T2, V-T8, V-T10, V-T30, V-T31, V-T33. -/
theorem test_text_accepted :
    textOk "#ip 3\nseti 5 0 0\n" = some ⟨3, [.seti 5 0 0]⟩ ∧
    textOk "seti 5 0 0\naddi 0 1 0" = some ⟨1, [.seti 5 0 0, .addi 0 1 0]⟩ ∧
    textOk "#ip\t0\t" = some ⟨0, []⟩ ∧
    textOk "\n\nseti 1 0 0\n\n" = some ⟨1, [.seti 1 0 0]⟩ ∧
    textOk "seti 5 0 0\r\naddi 0 1 0\r\n" = some ⟨1, [.seti 5 0 0, .addi 0 1 0]⟩ ∧
    textOk "  seti\t5   0 0  " = some ⟨1, [.seti 5 0 0]⟩ ∧
    textOk "" = some ⟨1, []⟩ := by decide

/-- V-T22, V-T23, V-T26, V-T28, V-T29: literals, and operands that are no register. -/
theorem test_text_operands :
    textOk "seti -2147483648 0 0" = some ⟨1, [.seti (-2147483648) 0 0]⟩ ∧
    textOk "seti 007 0 0" = some ⟨1, [.seti 7 0 0]⟩ ∧
    textOk "gtir 99 0 1" = some ⟨1, [.gtir 99 0 1]⟩ ∧
    textOk "seti 100 100 0" = some ⟨1, [.seti 100 100 0]⟩ ∧
    textOk "setr 0 -7 1" = some ⟨1, [.setr 0 (-7) 1]⟩ := by decide

/-- V-T4 to V-T7, V-T9, V-T11. -/
theorem test_text_directive :
    textError "#ip 7\nseti 5 0 0" = some ⟨.badIpDirective, 1⟩ ∧
    textError "#ip 12" = some ⟨.badIpDirective, 1⟩ ∧
    textError "#ip" = some ⟨.badIpDirective, 1⟩ ∧
    textError "#ip 2 x" = some ⟨.badIpDirective, 1⟩ ∧
    textError "  #ip 3" = some ⟨.unknownMnemonic, 1⟩ ∧
    textError "seti 1 0 0\n#ip 0" = some ⟨.unknownMnemonic, 2⟩ := by decide

/-- V-T12 to V-T16. -/
theorem test_text_tokens :
    textError "SETI 5 0 0" = some ⟨.unknownMnemonic, 1⟩ ∧
    textError "foo 1 2" = some ⟨.unknownMnemonic, 1⟩ ∧
    textError "ADDR 0 6" = some ⟨.unknownMnemonic, 1⟩ ∧
    textError "seti 5 0" = some ⟨.badTokenCount, 1⟩ ∧
    textError "seti 5 0 0 0" = some ⟨.badTokenCount, 1⟩ := by decide

/-- V-T17 to V-T21. -/
theorem test_text_integers :
    textError "seti +5 0 0" = some ⟨.badInteger, 1⟩ ∧
    textError "seti 5x 0 0" = some ⟨.badInteger, 1⟩ ∧
    textError "seti 0x10 0 0" = some ⟨.badInteger, 1⟩ ∧
    textError "addr 0 6 x" = some ⟨.badInteger, 1⟩ ∧
    textError "seti 2147483648 0 0" = some ⟨.badInteger, 1⟩ := by decide

/-- V-T24, V-T25, V-T27. -/
theorem test_text_registers :
    textError "addr 0 6 0" = some ⟨.operandOutOfRange, 1⟩ ∧
    textError "addi 0 -7 -1" = some ⟨.operandOutOfRange, 1⟩ ∧
    textError "gtir 0 99 1" = some ⟨.operandOutOfRange, 1⟩ := by decide

/-- V-T32: three instructions with MAXPROG = 2; V-T3: IP_DEFAULT with NREG = 1. -/
theorem test_text_configurations :
    (match loadText two .standard "seti 1 0 0\nseti 1 0 0\nseti 1 0 0".toList with
      | .ok _ => none
      | .error f => some f) = some ⟨.programTooLong, 3⟩ ∧
    (match loadText single .standard "seti 5 0 0".toList with
      | .ok p => some p.ip
      | .error _ => none) = some 0 := by decide

/-- V-E5 backwards: the disassembler. -/
theorem test_disassemble :
    disassemble ref (BitVec.ofNat _ 0x0000000000000005800000000000000A) = some "gtir -2147483648 5 0".toList := by
  decide

/-! ### Witnesses: states and operands that meet the hypotheses of the statements

One theorem per statement that has hypotheses, with a case for each clause, at the boundary of its range. -/

/-- A running core that has executed nothing, with `seti -1 0 5` at position 0 and PLEN = 1. -/
def looping : CoreState ref := ready 5 [] 1 [0x0000000500000000FFFFFFFF00000009]

/-- The view of an instruction executed by a running core whose registers are all 0. -/
def tried (i : Instr) : Option FaultView := seenFault (exec i ⟨ref, ready 5 [] 1 []⟩)

/-- The view of that core after REG_INDEX_OUT_OF_RANGE. -/
def badIndex : Option FaultView := some ⟨[0, 0, 0, 0, 0, 0], 0, .faulted, 2, 0⟩

/-- Equal cores make equal next states. -/
theorem next_congr {c d : CoreState ref} (h : c = d) :
    (.next ⟨ref, c⟩ : Host.Outcome State Fault Refusal) = .next ⟨ref, d⟩ := by rw [h]

theorem witness_DecodeOfEncodeIsTheInstruction :
    (Instr.addi 5 (-2147483648) 0).wellFormed ref = true ∧ (Instr.seti 2147483647 (-1) 5).wellFormed ref = true := by
  decide

theorem witness_EncodeOfDecodeIsTheWord :
    decode ref (BitVec.ofNat _ 0x0000000000000005800000000000000A) = .ok (.gtir (-2147483648) 5 0) := by rfl

/-- OPL = 16 and OPL = 15; A = 6 and A = -1 of addr, and B = 6 of gtir. -/
theorem witness_DecoderRefusesExactlyTheIllegalWords :
    decode ref (BitVec.ofNat _ 0x10) = .error .reservedBits ∧ decode ref (BitVec.ofNat _ 0xF) = .ok (.eqrr 0 0 0) ∧
    decode ref (BitVec.ofNat _ 0x00000000000000000000000600000000) = .error .regIndex ∧
    decode ref (BitVec.ofNat _ 0x0000000000000000FFFFFFFF00000000) = .error .regIndex ∧
    decode ref (BitVec.ofNat _ 0x0000000000000006000000000000000A) = .error .regIndex ∧
    decode ref (BitVec.ofNat _ 0x00000006000000000000000000000009) = .error .regIndex :=
  ⟨rfl, rfl, rfl, rfl, rfl, rfl⟩

theorem witness_InstructionLineEncodesLaneByLane :
    instrOfLine ref 1023 "addi 5 -1 0".toList = .ok (.addi 5 (-1) 0) := by rfl

theorem witness_TransferBytesGiveTheWordBack : (0 < bytesPerWord ref ∧ 15 < bytesPerWord ref) ∧ 0 < 8 ∧ 7 < 8 := by decide

theorem witness_AddAndMultiplyWrapModuloTwoToTheW :
    8 ≤ 8 ∧ (0 : Int) < 127 ∧ (0 : Int) < 1 ∧ (127 : Int) * 1 < 2 ^ (8 - 1) := by decide

theorem witness_AndAndOrActOnBitPatterns : 8 ≤ 8 ∧ 0 < 8 ∧ 7 < 8 := by decide

theorem witness_ComparisonsGiveZeroOrOne :
    8 ≤ 8 ∧ (127 : BitVec 8).toInt > (-128 : BitVec 8).toInt ∧ ¬(-1 : BitVec 8).toInt > (0 : BitVec 8).toInt ∧
    (5 : BitVec 8) = 5 ∧ (5 : BitVec 8) ≠ 4 := by decide

/-- The register operands of addr, mulr, banr, borr, gtrr and eqrr, each at -1 and at NREG, the others at a bound. -/
theorem witness_twoRegisterForms :
    (isRegister ref (-1) && isRegister ref 5 && isRegister ref 0) = false ∧
    (isRegister ref 6 && isRegister ref 5 && isRegister ref 0) = false ∧
    (isRegister ref 0 && isRegister ref (-1) && isRegister ref 5) = false ∧
    (isRegister ref 0 && isRegister ref 6 && isRegister ref 5) = false ∧
    (isRegister ref 5 && isRegister ref 0 && isRegister ref (-1)) = false ∧
    (isRegister ref 5 && isRegister ref 0 && isRegister ref 6) = false := by decide

/-- The two checked operands of the immediate forms (addi, muli, bani, bori, setr, gtri, eqri: a and c; gtir, eqir:
b and c), each at -1 and at NREG. -/
theorem witness_immediateForms :
    (isRegister ref (-1) && isRegister ref 0) = false ∧ (isRegister ref 6 && isRegister ref 5) = false ∧
    (isRegister ref 0 && isRegister ref (-1)) = false ∧ (isRegister ref 5 && isRegister ref 6) = false := by decide

theorem witness_SetiLoadsAnImmediate : isRegister ref (-1) = false ∧ isRegister ref 6 = false := by decide

theorem witness_AddrAddsTwoRegisters :
    (isRegister ref 6 && isRegister ref 0 && isRegister ref 0) = false ∧
    tried (.addr 6 0 0) = badIndex := by decide

theorem witness_AddiAddsAnImmediate :
    (isRegister ref 0 && isRegister ref 6) = false ∧
    tried (.addi 0 1 6) = badIndex := by decide

theorem witness_MulrMultipliesTwoRegisters :
    (isRegister ref 0 && isRegister ref (-1) && isRegister ref 0) = false ∧
    tried (.mulr 0 (-1) 0) = badIndex := by decide

theorem witness_MuliMultipliesByAnImmediate :
    (isRegister ref (-1) && isRegister ref 0) = false ∧
    tried (.muli (-1) 9 0) = badIndex := by decide

theorem witness_BanrAndsTwoRegisters :
    (isRegister ref 5 && isRegister ref 6 && isRegister ref 0) = false ∧
    tried (.banr 5 6 0) = badIndex := by decide

theorem witness_BaniAndsAnImmediate :
    (isRegister ref 0 && isRegister ref (-1)) = false ∧
    tried (.bani 0 9 (-1)) = badIndex := by decide

theorem witness_BorrOrsTwoRegisters :
    (isRegister ref 0 && isRegister ref 0 && isRegister ref 6) = false ∧
    tried (.borr 0 0 6) = badIndex := by decide

theorem witness_BoriOrsAnImmediate :
    (isRegister ref 6 && isRegister ref 0) = false ∧
    tried (.bori 6 9 0) = badIndex := by decide

theorem witness_SetrCopiesARegister :
    (isRegister ref 6 && isRegister ref 0) = false ∧
    tried (.setr 6 0 0) = badIndex := by decide

theorem witness_GtirComparesImmediateWithRegister :
    (isRegister ref 6 && isRegister ref 0) = false ∧
    tried (.gtir 9 6 0) = badIndex := by decide

theorem witness_GtriComparesRegisterWithImmediate :
    (isRegister ref (-1) && isRegister ref 0) = false ∧
    tried (.gtri (-1) 9 0) = badIndex := by decide

theorem witness_GtrrComparesTwoRegisters :
    (isRegister ref 6 && isRegister ref 6 && isRegister ref 6) = false ∧
    tried (.gtrr 6 6 6) = badIndex := by decide

theorem witness_EqirTestsImmediateAgainstRegister :
    (isRegister ref (-1) && isRegister ref 0) = false ∧
    tried (.eqir 9 (-1) 0) = badIndex := by decide

theorem witness_EqriTestsRegisterAgainstImmediate :
    (isRegister ref 0 && isRegister ref 6) = false ∧
    tried (.eqri 0 9 6) = badIndex := by decide

theorem witness_EqrrTestsTwoRegisters :
    (isRegister ref 0 && isRegister ref 6 && isRegister ref 0) = false ∧
    tried (.eqrr 0 6 0) = badIndex := by decide

theorem witness_ExecutedInstructionsChangeOnlyTargetIpAndCount :
    (Instr.addr 5 0 5).registersValid ref = true ∧ (Instr.seti 99 99 0).registersValid ref = true := by decide

/-- A pc at the last position of the program, with a legal word, a reserved bit, and a bad register operand there. -/
theorem witness_StepRunsTheDecodedInstruction :
    (ready 5 [0, 0, 0, 0, 0, 1] 2 [0, 0xF]).runState = .running ∧
    0 ≤ (ready 5 [0, 0, 0, 0, 0, 1] 2 [0, 0xF]).x[(5 : Fin 6)].toInt ∧
    (ready 5 [0, 0, 0, 0, 0, 1] 2 [0, 0xF]).x[(5 : Fin 6)].toInt < 2 ∧
    Memory.read (ready 5 [0, 0, 0, 0, 0, 1] 2 [0, 0xF]).imem 1 = some (BitVec.ofNat _ 0xF) ∧
    decode ref (BitVec.ofNat _ 0xF) = .ok (.eqrr 0 0 0) ∧
    Memory.read (ready 5 [0, 0, 0, 0, 0, 1] 2 [0, 0x10]).imem 1 = some (BitVec.ofNat _ 0x10) ∧
    decode ref (BitVec.ofNat _ 0x10) = .error .reservedBits ∧
    Memory.read (ready 5 [0, 0, 0, 0, 0, 1] 2 [0, 0x600000000]).imem 1 = some (BitVec.ofNat _ 0x600000000) ∧
    decode ref (BitVec.ofNat _ 0x600000000) = .error .regIndex :=
  ⟨rfl, by decide, by decide, by decide, rfl, by decide, rfl, by decide, rfl⟩

/-- Each branch of the statement: pc = -1, pc = PLEN, an unwritten entry, reserved bits, bad A, B, C, and none. -/
theorem witness_ChecksAreMadeInOrder :
    oneFault 1 [0, 0, 0, 0, 0, -1] [0] = some ⟨[0, 0, 0, 0, 0, -1], 0, .haltedNormal, 0, 0⟩ ∧
    oneFault 1 [0, 0, 0, 0, 0, 1] [0] = some ⟨[0, 0, 0, 0, 0, 1], 0, .haltedNormal, 0, 0⟩ ∧
    oneFault 1 [] [] = some ⟨[0, 0, 0, 0, 0, 0], 0, .faulted, 3, 0⟩ ∧
    oneFault 1 [] [0x10] = some ⟨[0, 0, 0, 0, 0, 0], 0, .faulted, 1, 0⟩ ∧
    oneFault 1 [] [0x600000000] = some ⟨[0, 0, 0, 0, 0, 0], 0, .faulted, 2, 0⟩ ∧
    oneFault 1 [] [0x60000000000000000] = some ⟨[0, 0, 0, 0, 0, 0], 0, .faulted, 2, 0⟩ ∧
    oneFault 1 [] [0x6000000000000000000000000] = some ⟨[0, 0, 0, 0, 0, 0], 0, .faulted, 2, 0⟩ ∧
    oneFault 1 [] [0] = some ⟨[0, 0, 0, 0, 0, 1], 1, .running, 0, 0⟩ := by decide

/-- pc = -1, pc = -2^31, pc = PLEN, pc = 2^31 - 1. -/
theorem witness_BoundsHaltChangesOnlyTheState :
    (ready 5 [] 1 []).runState = .running ∧ (ready 5 [0, 0, 0, 0, 0, -1] 1 []).x[(5 : Fin 6)].toInt < 0 ∧
    (ready 5 [0, 0, 0, 0, 0, -2147483648] 1 []).x[(5 : Fin 6)].toInt < 0 ∧
    1 ≤ (ready 5 [0, 0, 0, 0, 0, 1] 1 []).x[(5 : Fin 6)].toInt ∧
    1 ≤ (ready 5 [0, 0, 0, 0, 0, 2147483647] 1 []).x[(5 : Fin 6)].toInt := by decide

theorem witness_BoundsTestMayBeUnsigned :
    (-1 : BitVec 32).toInt < 0 ∧ (0x80000000 : BitVec 32).toInt < 0 ∧ ¬(0x7FFFFFFF : BitVec 32).toInt < 0 := by decide

theorem witness_FaultingStepsArePrecise :
    (ready 5 [] 1 [0x10]).runState ≠ .faulted ∧
    oneFault 1 [] [0x10] = some ⟨[0, 0, 0, 0, 0, 0], 0, .faulted, 1, 0⟩ ∧
    oneFault 1 [] [0x600000000] = some ⟨[0, 0, 0, 0, 0, 0], 0, .faulted, 2, 0⟩ ∧
    oneFault 1 [] [] = some ⟨[0, 0, 0, 0, 0, 0], 0, .faulted, 3, 0⟩ := by decide

theorem witness_TerminalStatesAreLeftOnlyByReset :
    (ready 5 [] 1 []).haltNormal.runState.terminal = true ∧
    ({ ready 5 [] 1 [] with runState := .haltedCapped } : CoreState ref).runState.terminal = true ∧
    ((ready 5 [] 1 []).takeFault .illegalOpcode).runState.terminal = true := by decide

/-- pc = PLEN - 1, and an instruction whose c is not the ip register. -/
theorem witness_FallThroughAddsOneToThePosition :
    (ready 5 [0, 0, 0, 0, 0, 1] 2 [0, 0]).runState = .running ∧
    0 ≤ (ready 5 [0, 0, 0, 0, 0, 1] 2 [0, 0]).x[(5 : Fin 6)].toInt ∧
    (ready 5 [0, 0, 0, 0, 0, 1] 2 [0, 0]).x[(5 : Fin 6)].toInt < 2 ∧
    Memory.read (ready 5 [0, 0, 0, 0, 0, 1] 2 [0, 0]).imem 1 = some (BitVec.ofNat _ 0) ∧
    decode ref (BitVec.ofNat _ 0) = .ok (.addr 0 0 0) ∧ (Instr.addr 0 0 0).operands.2.2 ≠ 5 :=
  ⟨rfl, by decide, by decide, by decide, rfl, by decide⟩

/-- `seti v 0 5` in a core without a cap, for v = 2^31 - 1, -1, -2 and PLEN - 1. -/
theorem witness_JumpTargetsWrapAndNegativeTargetsHalt :
    looping.runState = .running ∧ looping.capEn = false ∧
    exec (.seti 2147483647 0 5) ⟨ref, looping⟩ = .next ⟨ref, looping.afterExecuting looping.ipsel (bv 32 2147483647)⟩ ∧
    exec (.seti (-1) 0 5) ⟨ref, looping⟩ = .next ⟨ref, looping.afterExecuting looping.ipsel (bv 32 (-1))⟩ ∧
    exec (.seti (-2) 0 5) ⟨ref, looping⟩ = .next ⟨ref, looping.afterExecuting looping.ipsel (bv 32 (-2))⟩ ∧
    exec (.seti 0 0 5) ⟨ref, looping⟩ = .next ⟨ref, looping.afterExecuting looping.ipsel (bv 32 0)⟩ ∧
    (bv 32 (-2)).toInt ≤ -2 ∧ (looping.plen.val : Int) ≤ (bv 32 0).toInt + 1 :=
  ⟨rfl, rfl, next_congr (by decide), next_congr (by decide),
    next_congr (by decide), next_congr (by decide), by decide,
    by decide⟩

/-- r = 1, u = 2, q = 0, IPSEL = 5, with x1 = 0 and with x1 = 1. -/
theorem witness_IdiomsHaveTheirEffect :
    (ready 5 [7, 0] 1 []).ipsel.val ≠ 1 ∧ (ready 5 [7, 0] 1 []).x[(1 : Fin 6)].toInt = 0 ∧
    (ready 5 [7, 1] 1 []).x[(1 : Fin 6)].toInt = 1 ∧ (2 : Fin 6) ≠ 1 ∧ (ready 5 [7, 0] 1 []).ipsel.val ≠ 2 := by decide

theorem witness_CapIsReachedBeforeTheBoundsHalt :
    (ready 5 [] 1 [0]).runState = .running ∧ 0 ≤ (ready 5 [] 1 [0]).x[(5 : Fin 6)].toInt ∧
    (ready 5 [] 1 [0]).x[(5 : Fin 6)].toInt < 1 ∧
    Memory.read (ready 5 [] 1 [0]).imem 0 = some (BitVec.ofNat _ 0) ∧
    decode ref (BitVec.ofNat _ 0) = .ok (.addr 0 0 0) ∧
    CoreState.CapSet { ready 5 [] 1 [0] with capEn := true, capN := 1 } ∧ (0 : BitVec CW) + 1 = 1 :=
  ⟨rfl, by decide, by decide, by decide, rfl, ⟨rfl, by decide⟩, by decide⟩

theorem witness_CappedRunExecutesExactlyTheCap :
    looping.runState = .running ∧ looping.iter = 0 ∧ CoreState.CapSet { looping with capEn := true, capN := 3 } ∧
    0 ≤ (3 : BitVec CW).toNat ∧ 3 ≤ (3 : BitVec CW).toNat :=
  ⟨rfl, rfl, ⟨rfl, by decide⟩, by decide, by decide⟩

/-- A running core meets the invariant. -/
theorem witness_EveryStepKeepsTheInvariant : looping.Inv where
  imemCanonical := by decide
  faultCodeIff := by decide
  faultCodeKnown := by decide
  faultPcZero := by decide
  loadCodeIff := by decide
  loadCodeKnown := by decide
  loadErrIdle := by decide
  idleFresh := by intro h; exact absurd h (by decide)
  capRunning := fun _ h => absurd h.1 (by decide)
  capReached := by intro h; exact absurd h (by decide)

/-- A core in IDLE with a word, a length and a cap meets the invariant. -/
theorem witness_EveryHostOperationKeepsTheInvariant :
    CoreState.Inv { CoreState.reset ref with
      imem := memOf ref 0 [0], plen := (1 : Fin 1025), capEn := true, capN := (5 : BitVec CW) } where
  imemCanonical := by decide
  faultCodeIff := by decide
  faultCodeKnown := by decide
  faultPcZero := by decide
  loadCodeIff := by decide
  loadCodeKnown := by decide
  loadErrIdle := by decide
  idleFresh := fun _ => ⟨by decide, rfl⟩
  capRunning := by intro h; exact absurd h (by decide)
  capReached := by intro h; exact absurd h (by decide)

/-- A running core whose one word is legal is a checked load. -/
theorem witness_CheckedLoadIsKept : looping.Loaded where
  wordsLegal := by
    intro p w h
    simp only [looping, ready, memOf, Memory.read] at h
    split at h
    · cases h
      exact ⟨.seti (-1) 0 5, rfl⟩
    · cases h
  complete := by
    intro _ p hp
    have h0 : p = 0 := Nat.lt_one_iff.mp hp
    subst h0
    exact ⟨_, rfl⟩
  notFaulted := by decide

theorem witness_HostReadsGiveTheRegistersTheirValues : 7 ≤ 7 ∧ 7 ≤ 8 := by decide

theorem witness_WritesOutsideIdleHaveNoEffect :
    looping.runState ≠ .idle ∧ (CoreState.reset ref).runState = .idle := by decide

/-- IPSEL 5, 6 and 7 of 3 bits; PLEN 1024, 1025 and 2047 of 11 bits; CAP.EN 0 and 1; CAP.N 2^64 - 1. -/
theorem witness_RegisterWritesInIdle :
    (CoreState.reset ref).runState = .idle ∧ 5 < ref.NREG ∧ (ref.NREG ≤ 6 ∧ 7 < 2 ^ indexWidth ref) ∧
    1024 ≤ ref.MAXPROG ∧ (ref.MAXPROG < 1025 ∧ 2047 < 2 ^ plenWidth ref) ∧ (0 < 2 ∧ 1 < 2) ∧
    18446744073709551615 < 2 ^ CW ∧ 8 ≤ 8 := by decide

theorem witness_FirstLoadErrorIsKeptUntilReset :
    ((CoreState.reset ref).applyOp (.csrWrite 1 6)).runState = .idle ∧
    ((CoreState.reset ref).applyOp (.csrWrite 1 6)).loadErr = true ∧
    (∀ inp ∈ ([⟨false, some startOp⟩, ⟨false, none⟩] : List HostInput), inp.rst = false) := by decide

/-- Position 1024; OPL = 16; A = 6 and B = -1 of addr, C = 6 of seti; and a word that passes at position 1023. -/
theorem witness_LoadPortChecksEachWord :
    (CoreState.reset ref).runState = .idle ∧ ref.MAXPROG ≤ 1024 ∧ ¬ref.MAXPROG ≤ 1023 ∧
    loaded [.imemWrite 1023 0x10] = ⟨true, 8, 1, 0, [], .idle⟩ ∧
    loaded [.imemWrite 1023 0x600000000] = ⟨true, 6, 1, 0, [], .idle⟩ ∧
    loaded [.imemWrite 1023 0x00000000FFFFFFFF0000000000000000] = ⟨true, 6, 1, 0, [], .idle⟩ ∧
    loaded [.imemWrite 1023 0x00000006000000000000000000000009] = ⟨true, 6, 1, 0, [], .idle⟩ ∧
    loaded [.imemWrite 1023 0x00000005000000000000000000000009] = ⟨false, 0, 1, 0, [1023], .idle⟩ := by decide

/-- Running; a load error; PLEN = 1 with nothing written; PLEN = 0; PLEN = 1 with position 0 written. -/
theorem witness_StartFollowsItsRule :
    looping.runState ≠ .idle ∧ loaded [.csrWrite 1 6, startOp] = ⟨true, 4, 1, 0, [], .idle⟩ ∧
    loaded [.csrWrite 2 1, startOp] = ⟨true, 9, 1, 1, [], .idle⟩ ∧ loaded [startOp] = ⟨false, 0, 1, 0, [], .running⟩ ∧
    loaded [.imemWrite 0 0, .csrWrite 2 1, startOp] = ⟨false, 0, 1, 1, [0], .running⟩ := by decide

theorem witness_RunsBeginWithRegistersZero :
    cycles [⟨false, none⟩] (State.resetOf ref) = .next ⟨ref, CoreState.reset ref⟩ ∧
    (CoreState.reset ref).runState = .idle ∧
    cycle ⟨false, some startOp⟩ ⟨ref, CoreState.reset ref⟩ =
      .next ⟨ref, { CoreState.reset ref with runState := .running }⟩ :=
  ⟨rfl, rfl, next_congr (by decide)⟩

/-- n = 0, n = 1, n = 2^64 - 1, n = 2^64. -/
theorem witness_IterationCapOperation :
    (CoreState.reset ref).runState = .idle ∧ (0 : Int) ≤ 0 ∧ (1 : Int) ≤ 1 ∧ (18446744073709551615 : Int) ≤ 2 ^ CW - 1 ∧
    (2 : Int) ^ CW ≤ 18446744073709551616 ∧ setIterationCap 0 = some [.csrWrite 3 0, .csrWrite 4 0] ∧
    setIterationCap 18446744073709551615 = some [.csrWrite 4 18446744073709551615, .csrWrite 3 1] ∧
    setIterationCap 18446744073709551616 = none := by decide

/-- n = 0; and W = 8 with the largest register count and capacity. -/
theorem witness_ConstructionRefusesBadParameters :
    (0 : Int) ≤ 0 ∧ construct 32 0 1024 = .error .registerCount ∧
    (8 ≤ 8 ∧ (1 : Int) ≤ 127 ∧ (127 : Int) ≤ 2 ^ (8 - 1) - 1 ∧ 127 ≤ 2 ^ (8 - 1) - 1) ∧
    construct 8 128 0 = .error .tooManyRegisters ∧ construct 8 127 128 = .error .capacity ∧
    construct 7 1 0 = .error .width :=
  ⟨by decide, rfl, by decide, rfl, rfl, rfl⟩

theorem witness_AcceptedTextIsWellFormed :
    loadText ref .standard "#ip 5\naddi 5 -2147483648 0\n".toList = .ok ⟨5, [.addi 5 (-2147483648) 0]⟩ := by rfl

/-- A text that is accepted, with the cap off and with the largest cap. -/
theorem witness_AcceptedTextStartsRunning :
    loadText ref .standard "#ip 0\nseti -1 0 0".toList = .ok ⟨0, [.seti (-1) 0 0]⟩ ∧ (-1 : Int) < 2 ^ CW ∧
    (18446744073709551615 : Int) < 2 ^ CW ∧
    ((boot ref ⟨0, [.seti (-1) 0 0]⟩ 18446744073709551615).map fun c => (c.runState, c.capN.toNat)) =
      some (.running, 18446744073709551615) :=
  ⟨rfl, by decide, by decide, by decide⟩

theorem witness_DisassembledTextReadsBack :
    (Instr.gtir (-2147483648) 5 0).wellFormed ref = true ∧ 1023 < ref.MAXPROG := by decide

end Sys2Proof.Tests
end

section
/-!
PROOFS. The step after a write to the ip register: the pc is one past the written value, wrapping at the top of the
W-bit range, and the bounds test decides whether the run ends (40_execution_cycle R122, R130, R133, R134).
-/

namespace Sys2Proof.Machine

variable {cfg : Config}

/-! ### The bounds halt -/

theorem fetch_of_pc_outside (s : CoreState cfg)
    (hpc : s.x[s.ipsel].toInt < 0 ∨ (s.plen.val : Int) ≤ s.x[s.ipsel].toInt) : s.fetch = .outside := by
  have hout : ¬s.pcInProgram = true := by
    rw [pcInProgram_iff]
    omega
  rcases fetch_cases s with ⟨-, hf⟩ | ⟨hin, -⟩ | ⟨_, hin, -⟩ | ⟨_, _, hin, -⟩
  · exact hf
  all_goals exact absurd hin hout

/-- A running core whose pc is outside [0, PLEN) takes the bounds halt (40_execution_cycle R122). -/
theorem step_of_pc_outside (s : CoreState cfg) (hrun : s.runState = .running)
    (hpc : s.x[s.ipsel].toInt < 0 ∨ (s.plen.val : Int) ≤ s.x[s.ipsel].toInt) :
    step ⟨cfg, s⟩ = .next ⟨cfg, { s with runState := .haltedNormal }⟩ := by
  simp [step, hrun, fetch_of_pc_outside s hpc, State.advance, CoreState.haltNormal]

/-! ### One past a word -/

theorem isLiteral_iff (n : Int) : isLiteral cfg n = true ↔ -2 ^ (cfg.W - 1) ≤ n ∧ n < 2 ^ (cfg.W - 1) := by
  simp only [isLiteral, decide_eq_true_eq]
  omega

/-- One past the largest signed word is the smallest (40_execution_cycle R133). -/
theorem bv_largest_add_one (cfg : Config) :
    bv cfg.W (2 ^ (cfg.W - 1) - 1) + bv cfg.W 1 = bv cfg.W (-2 ^ (cfg.W - 1)) := by
  have hpow : (2 : Int) ^ cfg.W = 2 * 2 ^ (cfg.W - 1) := by
    rw [← pow_succ', Nat.sub_add_cancel (by have := cfg.W_ge; omega)]
  calc bv cfg.W (2 ^ (cfg.W - 1) - 1) + bv cfg.W 1
      = bv cfg.W (-2 ^ (cfg.W - 1) + 2 ^ cfg.W) := by
        rw [← bv_add, hpow]
        congr 1
        omega
    _ = bv cfg.W (-2 ^ (cfg.W - 1)) := bv_add_two_pow _ _

theorem toInt_bv_smallest (cfg : Config) : (bv cfg.W (-2 ^ (cfg.W - 1))).toInt = -2 ^ (cfg.W - 1) := by
  have hpos : (0 : Int) < 2 ^ (cfg.W - 1) := by positivity
  exact bv_toInt_of_isLiteral cfg _ ((isLiteral_iff _).mpr ⟨le_refl _, by omega⟩)

/-- Adding one to a word adds one to its signed value, or wraps from the largest value to the smallest. -/
theorem toInt_add_one_cases (v : Word cfg.W) :
    (v + bv cfg.W 1).toInt = v.toInt + 1 ∨
    (v.toInt = 2 ^ (cfg.W - 1) - 1 ∧ (v + bv cfg.W 1).toInt = -2 ^ (cfg.W - 1)) := by
  obtain ⟨hlo, hhi⟩ := (isLiteral_iff _).mp (isLiteral_toInt cfg v)
  have hv : v = bv cfg.W v.toInt := (bv_toInt cfg v).symm
  by_cases hlast : v.toInt = 2 ^ (cfg.W - 1) - 1
  · right
    rw [hlast] at hv
    exact ⟨hlast, by rw [hv, bv_largest_add_one, toInt_bv_smallest]⟩
  · left
    calc (v + bv cfg.W 1).toInt
        = (bv cfg.W (v.toInt + 1)).toInt := by rw [bv_add, ← hv]
      _ = v.toInt + 1 := bv_toInt_of_isLiteral cfg _ ((isLiteral_iff _).mpr ⟨by omega, by omega⟩)

/-- One past a word below -1 is negative: the increment does not reach 0. -/
theorem toInt_add_one_neg (v : Word cfg.W) (hv : v.toInt ≤ -2) : (v + bv cfg.W 1).toInt < 0 := by
  have hpos : (0 : Int) < 2 ^ (cfg.W - 1) := by positivity
  rcases toInt_add_one_cases v with hnext | ⟨-, hwrap⟩ <;> omega

/-- One past a word whose signed value plus one is at least n, is at least n or has wrapped to a negative value. -/
theorem toInt_add_one_neg_or_le (v : Word cfg.W) (n : Int) (hv : n ≤ v.toInt + 1) :
    (v + bv cfg.W 1).toInt < 0 ∨ n ≤ (v + bv cfg.W 1).toInt := by
  have hpos : (0 : Int) < 2 ^ (cfg.W - 1) := by positivity
  rcases toInt_add_one_cases v with hnext | ⟨-, hwrap⟩ <;> omega

/-! ### The core after a jump -/

theorem CoreState.afterExecuting_ipsel_getElem (s : CoreState cfg) (v : Word cfg.W) :
    (s.afterExecuting s.ipsel v).x[s.ipsel] = v + bv cfg.W 1 := by
  rw [CoreState.afterExecuting_getElem, if_pos rfl, if_pos rfl]

/-- Without a cap in force an executed instruction leaves STATE as it was (40_execution_cycle R128). -/
theorem CoreState.afterExecuting_runState_of_not_capSet (s : CoreState cfg) (k : Fin cfg.NREG) (v : Word cfg.W)
    (hcap : ¬s.CapSet) : (s.afterExecuting k v).runState = s.runState :=
  if_neg fun ⟨hen, hn, _⟩ => hcap ⟨hen, hn⟩

/-- The step after a write of v to the ip register halts when v + 1 is outside [0, PLEN). -/
theorem step_afterExecuting_ipsel_halts (s : CoreState cfg) (v : Word cfg.W) (hrun : s.runState = .running)
    (hcap : ¬s.CapSet)
    (hpc : (v + bv cfg.W 1).toInt < 0 ∨ (s.plen.val : Int) ≤ (v + bv cfg.W 1).toInt) :
    step ⟨cfg, s.afterExecuting s.ipsel v⟩ =
      .next ⟨cfg, { s.afterExecuting s.ipsel v with runState := .haltedNormal }⟩ := by
  rw [← s.afterExecuting_ipsel_getElem v] at hpc
  exact step_of_pc_outside _ ((s.afterExecuting_runState_of_not_capSet _ v hcap).trans hrun) hpc

/-- Settles O37: the next pc is one past the written value, so each case is the bounds test at that word. -/
theorem jumpTargetsWrapAndNegativeTargetsHalt : Obligations.JumpTargetsWrapAndNegativeTargetsHalt := by
  intro cfg s i v hrun hcap hexec
  have hpc := s.afterExecuting_ipsel_getElem v
  have halts := step_afterExecuting_ipsel_halts s v hrun hcap
  refine ⟨s.afterExecuting s.ipsel v, hexec, hpc, ?largest, ?restart, ?negative, ?pastEnd⟩
  case largest =>
    intro hv
    have hwrap : v + bv cfg.W 1 = bv cfg.W (-2 ^ (cfg.W - 1)) := by rw [hv, bv_largest_add_one]
    have hneg : (v + bv cfg.W 1).toInt < 0 := by
      rw [hwrap, toInt_bv_smallest]
      exact neg_neg_of_pos (by positivity)
    exact ⟨hpc.trans hwrap, halts (.inl hneg)⟩
  case restart =>
    intro hv
    rw [hpc, hv, ← bv_add]
    simp [bv]
  case negative =>
    intro hv
    have hneg := toInt_add_one_neg v hv
    exact ⟨by rw [hpc]; exact hneg, halts (.inl hneg)⟩
  case pastEnd =>
    intro hv
    exact halts (toInt_add_one_neg_or_le v _ hv)

end Sys2Proof.Machine
end

section
/-!
PROOFS. The reference datapath performs the architectural step: the circuits are the operand functions, a row of the
semantic table reads the operands its instruction reads, the word is executed or faults as the decoded instruction
does, and the cycle takes the branch the fetch takes (10_state R31 to R37; 30_encoding R94 to R98;
40_execution_cycle R121, R142).
-/

namespace Sys2Proof.Machine

variable {cfg : Config}

/-! ### The comparators and the operand assembly -/

/-- GT is the signed comparator with its operands exchanged (44_comparison R180). -/
theorem fnGt_eq_circuit (w : Nat) (p q : Word w) : fnGt w p q = Fn.gt.circuit p q := outcomeWord_eq w _

/-- EQ is the equality comparator (44_comparison R180). -/
theorem fnEq_eq_circuit (w : Nat) (p q : Word w) : fnEq w p q = Fn.eq.circuit p q := outcomeWord_eq w _

theorem CoreState.operandValue_imm (s : CoreState cfg) (v : Word cfg.W) : s.operandValue .imm v = some v := rfl

theorem CoreState.operandValue_unused (s : CoreState cfg) (v : Word cfg.W) :
    s.operandValue .unused v = some (BitVec.ofNat cfg.W 0) := rfl

/-- A register-mode operand is the data of the read port at its lane (30_encoding R96). -/
theorem CoreState.operandValue_reg (s : CoreState cfg) (v : Word cfg.W) (i : Fin cfg.NREG) (h : v.toInt = i.val) :
    s.operandValue .reg v = some s.x[i] := s.readPort_of_index v i h

/-! ### The rows of the semantic table -/

/-- Instruction i executes as a row of the semantic table says of the lanes A, B, C: both operands are assembled by
their modes, and x[C] takes the row's circuit of them. -/
def ExecutesRow (s : CoreState cfg) (row : Fn × OperandMode × OperandMode) (va vb vc : Word cfg.W) (i : Instr) :
    Prop :=
  ∃ (k : Fin cfg.NREG) (p q : Word cfg.W), vc.toInt = k.val ∧
    s.operandValue row.2.1 va = some p ∧ s.operandValue row.2.2 vb = some q ∧
    exec i ⟨cfg, s⟩ = .next ⟨cfg, s.afterExecuting k (row.1.circuit p q)⟩

section rows

variable {s : CoreState cfg} {i : Instr} {f : OperandFn} {fn : Fn} {va vb vc : Word cfg.W}

theorem executesRow_reg_reg
    (hexec : exec i ⟨cfg, s⟩ = State.advance ⟨cfg, s⟩ (formRR f va.toInt vb.toInt vc.toInt ⟨cfg, s⟩))
    (hfn : ∀ p q, f cfg.W p q = fn.circuit p q)
    (hvalid : (isRegister cfg va.toInt && isRegister cfg vb.toInt && isRegister cfg vc.toInt) = true) :
    ExecutesRow s (fn, .reg, .reg) va vb vc i := by
  simp only [Bool.and_eq_true, isRegister_iff] at hvalid
  obtain ⟨⟨⟨a, ha⟩, b, hb⟩, c, hc⟩ := hvalid
  refine ⟨c, s.x[a], s.x[b], hc, s.operandValue_reg va a ha, s.operandValue_reg vb b hb, ?_⟩
  rw [hexec, ha, hb, hc, formRR_valid, hfn]
  rfl

theorem executesRow_reg_imm
    (hexec : exec i ⟨cfg, s⟩ = State.advance ⟨cfg, s⟩ (formRI f va.toInt vb.toInt vc.toInt ⟨cfg, s⟩))
    (hfn : ∀ p q, f cfg.W p q = fn.circuit p q)
    (hvalid : (isRegister cfg va.toInt && isRegister cfg vc.toInt) = true) :
    ExecutesRow s (fn, .reg, .imm) va vb vc i := by
  simp only [Bool.and_eq_true, isRegister_iff] at hvalid
  obtain ⟨⟨a, ha⟩, c, hc⟩ := hvalid
  refine ⟨c, s.x[a], vb, hc, s.operandValue_reg va a ha, s.operandValue_imm vb, ?_⟩
  rw [hexec, ha, hc, formRI_valid, hfn, bv_toInt]
  rfl

theorem executesRow_imm_reg
    (hexec : exec i ⟨cfg, s⟩ = State.advance ⟨cfg, s⟩ (formIR f va.toInt vb.toInt vc.toInt ⟨cfg, s⟩))
    (hfn : ∀ p q, f cfg.W p q = fn.circuit p q)
    (hvalid : (isRegister cfg vb.toInt && isRegister cfg vc.toInt) = true) :
    ExecutesRow s (fn, .imm, .reg) va vb vc i := by
  simp only [Bool.and_eq_true, isRegister_iff] at hvalid
  obtain ⟨⟨b, hb⟩, c, hc⟩ := hvalid
  refine ⟨c, va, s.x[b], hc, s.operandValue_imm va, s.operandValue_reg vb b hb, ?_⟩
  rw [hexec, hb, hc, formIR_valid, hfn, bv_toInt]
  rfl

theorem executesRow_reg_unused
    (hexec : exec i ⟨cfg, s⟩ = State.advance ⟨cfg, s⟩ (formR va.toInt vc.toInt ⟨cfg, s⟩))
    (hvalid : (isRegister cfg va.toInt && isRegister cfg vc.toInt) = true) :
    ExecutesRow s (.set, .reg, .unused) va vb vc i := by
  simp only [Bool.and_eq_true, isRegister_iff] at hvalid
  obtain ⟨⟨a, ha⟩, c, hc⟩ := hvalid
  refine ⟨c, s.x[a], _, hc, s.operandValue_reg va a ha, s.operandValue_unused vb, ?_⟩
  rw [hexec, ha, hc, formR_valid]
  rfl

theorem executesRow_imm_unused
    (hexec : exec i ⟨cfg, s⟩ = State.advance ⟨cfg, s⟩ (formI va.toInt vc.toInt ⟨cfg, s⟩))
    (hvalid : isRegister cfg vc.toInt = true) :
    ExecutesRow s (.set, .imm, .unused) va vb vc i := by
  obtain ⟨c, hc⟩ := (isRegister_iff _).mp hvalid
  refine ⟨c, va, _, hc, s.operandValue_imm va, s.operandValue_unused vb, ?_⟩
  rw [hexec, hc, formI_valid, bv_toInt]
  rfl

end rows

/-- The instruction of every opcode number executes as its row of the semantic table says (30_encoding R94). -/
theorem executesRow_instrOfOpcode (s : CoreState cfg) (op : BitVec 4) (va vb vc : Word cfg.W)
    (hvalid : (instrOfOpcode op va.toInt vb.toInt vc.toInt).registersValid cfg = true) :
    ExecutesRow s (semanticTable op) va vb vc (instrOfOpcode op va.toInt vb.toInt vc.toInt) := by
  obtain ⟨⟨n, hn⟩⟩ := op
  have hn' : n < 16 := hn
  interval_cases n
  · exact executesRow_reg_reg (f := fnAdd) rfl (fnAdd_eq _) hvalid
  · exact executesRow_reg_imm (f := fnAdd) rfl (fnAdd_eq _) hvalid
  · exact executesRow_reg_reg (f := fnMul) rfl (fnMul_eq _) hvalid
  · exact executesRow_reg_imm (f := fnMul) rfl (fnMul_eq _) hvalid
  · exact executesRow_reg_reg (f := fnAnd) rfl (fun _ _ => rfl) hvalid
  · exact executesRow_reg_imm (f := fnAnd) rfl (fun _ _ => rfl) hvalid
  · exact executesRow_reg_reg (f := fnOr) rfl (fun _ _ => rfl) hvalid
  · exact executesRow_reg_imm (f := fnOr) rfl (fun _ _ => rfl) hvalid
  · exact executesRow_reg_unused rfl hvalid
  · exact executesRow_imm_unused rfl hvalid
  · exact executesRow_imm_reg (f := fnGt) rfl (fnGt_eq_circuit _) hvalid
  · exact executesRow_reg_imm (f := fnGt) rfl (fnGt_eq_circuit _) hvalid
  · exact executesRow_reg_reg (f := fnGt) rfl (fnGt_eq_circuit _) hvalid
  · exact executesRow_imm_reg (f := fnEq) rfl (fnEq_eq_circuit _) hvalid
  · exact executesRow_reg_imm (f := fnEq) rfl (fnEq_eq_circuit _) hvalid
  · exact executesRow_reg_reg (f := fnEq) rfl (fnEq_eq_circuit _) hvalid

/-! ### The execution of a fetched word -/

/-- The commit edge of a running core leaves the state after the executed instruction (10_state R36). -/
theorem CoreState.executeEdge_eq (s : CoreState cfg) (hrun : s.runState = .running) (vc d : Word cfg.W)
    (k : Fin cfg.NREG) (hk : vc.toInt = k.val) :
    s.executeEdge { en := true, idx := portIndex cfg vc, data := d } = s.afterExecuting k d := by
  simp [CoreState.executeEdge, CoreState.afterExecuting, s.commitEdge_of_index vc k hk, hrun, and_assoc]

theorem CoreState.executeWord_of_reserved (s : CoreState cfg) (w : InstrWord cfg) (h : reservedBits cfg w ≠ 0) :
    s.executeWord w = s.afterFault 1 := if_pos h

/-- The datapath's three index checks are the decoder's register check (30_encoding R98). -/
theorem CoreState.executeWord_of_invalid (s : CoreState cfg) (w : InstrWord cfg) (h : reservedBits cfg w = 0)
    (hvalid : ¬(instrOfOpcode (opcodeOf cfg w) (laneA cfg w).toInt (laneB cfg w).toInt
      (laneC cfg w).toInt).registersValid cfg = true) :
    s.executeWord w = s.afterFault 2 := by
  rw [registersValid_table] at hvalid
  simp only [CoreState.executeWord, validIndex_eq, h, ne_eq, not_true_eq_false, if_false]
  split
  · rfl
  split
  · rfl
  split
  · rfl
  · rename_i ha hb hc
    refine absurd ⟨fun hm => ?_, fun hm => ?_, ?_⟩ hvalid
    · simpa [hm] using ha
    · simpa [hm] using hb
    · simpa using hc

/-- With valid register operands the datapath leaves the state that the decoded instruction leaves. -/
theorem CoreState.exec_eq_executeWord (s : CoreState cfg) (hrun : s.runState = .running) (w : InstrWord cfg)
    (h : reservedBits cfg w = 0)
    (hvalid : (instrOfOpcode (opcodeOf cfg w) (laneA cfg w).toInt (laneB cfg w).toInt
      (laneC cfg w).toInt).registersValid cfg = true) :
    exec (instrOfOpcode (opcodeOf cfg w) (laneA cfg w).toInt (laneB cfg w).toInt (laneC cfg w).toInt) ⟨cfg, s⟩ =
      .next ⟨cfg, s.executeWord w⟩ := by
  obtain ⟨k, p, q, hk, hp, hq, hexec⟩ := executesRow_instrOfOpcode s _ _ _ _ hvalid
  obtain ⟨ha, hb, hc⟩ := (registersValid_table _ _ _ _).mp hvalid
  have hword : s.executeWord w = s.afterExecuting k ((semanticTable (opcodeOf cfg w)).1.circuit p q) := by
    simp only [CoreState.executeWord, validIndex_eq, h, ne_eq, not_true_eq_false, if_false]
    rw [if_neg (by rintro ⟨hm, hx⟩; simp [ha hm] at hx), if_neg (by rintro ⟨hm, hx⟩; simp [hb hm] at hx),
      if_neg (by simp [hc]), hp, hq]
    exact s.executeEdge_eq hrun _ _ k hk
  rw [hexec, hword]

/-- The datapath on a word without reserved bits is exec of the word's tuple. -/
theorem CoreState.exec_eq_executeWord_of_clear (s : CoreState cfg) (hrun : s.runState = .running) (w : InstrWord cfg)
    (i : Instr) (h : reservedBits cfg w = 0) (hi : readWord cfg w = .ok i) :
    exec i ⟨cfg, s⟩ = .next ⟨cfg, s.executeWord w⟩ := by
  rw [readWord_of_clear cfg w h] at hi
  cases hi
  rcases exec_cases (instrOfOpcode (opcodeOf cfg w) (laneA cfg w).toInt (laneB cfg w).toInt (laneC cfg w).toInt) s
    with ⟨hvalid, -⟩ | ⟨hvalid, hfault⟩
  · exact s.exec_eq_executeWord hrun w h hvalid
  · rw [hfault, s.executeWord_of_invalid w h (by simp [hvalid])]

/-! ### The cycle -/

theorem CoreState.datapathCycle_of_not_running (s : CoreState cfg) (h : s.runState ≠ .running) :
    s.datapathCycle = s := if_neg h

section running

variable (s : CoreState cfg) (hrun : s.runState = .running)
include hrun

theorem CoreState.datapathCycle_of_outside (hpc : s.pcInProgram = false) : s.datapathCycle = s.haltNormal := by
  have hout : ¬s.ripData.toNat < s.plen.val := by simp [← pcInProgram_iff_ripData, hpc]
  rw [CoreState.datapathCycle, if_pos hrun, if_neg hout]
  rfl

theorem CoreState.datapathCycle_of_unwritten (hpc : s.pcInProgram = true)
    (hread : Memory.read s.imem s.pc.toNat = none) : s.datapathCycle = s.afterFault 3 := by
  have hread' : Memory.read s.imem s.ripData.toNat = none := hread
  rw [CoreState.datapathCycle, if_pos hrun, if_pos ((pcInProgram_iff_ripData s).mp hpc), hread']
  rfl

theorem CoreState.datapathCycle_of_word (hpc : s.pcInProgram = true) (w : InstrWord cfg)
    (hread : Memory.read s.imem s.pc.toNat = some w) : s.datapathCycle = s.executeWord w := by
  have hread' : Memory.read s.imem s.ripData.toNat = some w := hread
  rw [CoreState.datapathCycle, if_pos hrun, if_pos ((pcInProgram_iff_ripData s).mp hpc), hread']

end running

/-- What the step does with each result of the fetch (40_execution_cycle R121). -/
theorem step_of_fetch_outside (s : CoreState cfg) (hrun : s.runState = .running) (hf : s.fetch = .outside) :
    step ⟨cfg, s⟩ = .next ⟨cfg, s.haltNormal⟩ := by
  simp [step, hrun, hf, State.advance]

theorem step_of_fetch_fault (s : CoreState cfg) (hrun : s.runState = .running) (f : FaultCode)
    (hf : s.fetch = .fault f) : step ⟨cfg, s⟩ = .next ⟨cfg, s.afterFault f.number⟩ := by
  simp [step, hrun, hf, State.advance, CoreState.takeFault_eq]

theorem step_of_fetch_instr (s : CoreState cfg) (hrun : s.runState = .running) (i : Instr)
    (hf : s.fetch = .instr i) : step ⟨cfg, s⟩ = exec i ⟨cfg, s⟩ := by
  simp [step, hrun, hf]

/-- Settles O28: in RUNNING, fetch and datapath go through the same four cases. -/
theorem datapathCycleIsTheStep : Obligations.DatapathCycleIsTheStep := by
  rintro ⟨cfg, s⟩
  by_cases hrun : s.runState = .running
  · rcases fetch_cases s with ⟨hpc, hf⟩ | ⟨hpc, hread, hf⟩ | ⟨w, hpc, hread, hres, hf⟩ |
      ⟨w, i, hpc, hread, hres, hi, hf⟩
    · rw [step_of_fetch_outside s hrun hf, s.datapathCycle_of_outside hrun hpc]
    · rw [step_of_fetch_fault s hrun _ hf, s.datapathCycle_of_unwritten hrun hpc hread]
      rfl
    · rw [step_of_fetch_fault s hrun _ hf, s.datapathCycle_of_word hrun hpc w hread, s.executeWord_of_reserved w hres]
      rfl
    · rw [step_of_fetch_instr s hrun i hf, s.exec_eq_executeWord_of_clear hrun w i hres hi,
        s.datapathCycle_of_word hrun hpc w hread]
  · rw [step_of_not_running s hrun, s.datapathCycle_of_not_running hrun]

end Sys2Proof.Machine
end

section
/-!
PROOFS. The invariant of the core: reset meets it, and every operation of a step and of the host keeps it
(10_state R43 to R46; 60_exceptions R200, R212, R213; 70_reset_and_hazards R240, R245).
-/

namespace Sys2Proof.Machine

variable {cfg : Config}

/-! ### Reset -/

@[simp] theorem reset_getElem (cfg : Config) (i : Fin cfg.NREG) : (CoreState.reset cfg).x[i] = 0 := by
  simp [CoreState.reset]

theorem reset_status (cfg : Config) : (CoreState.reset cfg).status = 0 := by
  simp [CoreState.status, CoreState.reset, RunState.number]

/-- Settles O46: each value is the field of the reset state, and STATUS packs zeros. -/
theorem resetValuesAreTheSpecs : Obligations.ResetValuesAreTheSpecs := by
  intro cfg
  exact ⟨reset_getElem cfg, rfl, Memory.read_nil, rfl, rfl, rfl, rfl, rfl, rfl, rfl, rfl, rfl, reset_getElem cfg _,
    reset_status cfg⟩

theorem reset_inv (cfg : Config) : (CoreState.reset cfg).Inv where
  imemCanonical := reset_imem_wf cfg
  faultCodeIff := by simp [CoreState.reset]
  faultCodeKnown := by simp [CoreState.reset]
  faultPcZero _ := rfl
  loadCodeIff := by simp [CoreState.reset]
  loadCodeKnown := by simp [CoreState.reset]
  loadErrIdle _ := rfl
  idleFresh _ := ⟨reset_getElem cfg, rfl⟩
  capRunning h := nomatch h
  capReached h := nomatch h

/-- Settles O41: every clause of the invariant at the reset values. -/
theorem resetMeetsTheInvariant : Obligations.ResetMeetsTheInvariant := reset_inv

/-! ### The operations of a step -/

/-- An instruction of a running core ends the run at the cap, and leaves it running otherwise (40_execution_cycle
R128). -/
theorem CoreState.afterExecuting_runState_cases (s : CoreState cfg) (hrun : s.runState = .running)
    (k : Fin cfg.NREG) (v : Word cfg.W) :
    ((s.afterExecuting k v).runState = .haltedCapped ∧ s.CapSet ∧ s.iter + 1 = s.capN) ∨
    ((s.afterExecuting k v).runState = .running ∧ (s.CapSet → s.iter + 1 ≠ s.capN)) := by
  by_cases hcap : s.capEn = true ∧ s.capN ≠ 0 ∧ s.iter + 1 = s.capN
  · obtain ⟨hen, hn, hiter⟩ := hcap
    exact .inl ⟨if_pos ⟨hen, hn, hiter⟩, ⟨hen, hn⟩, hiter⟩
  · exact .inr ⟨(if_neg hcap).trans hrun, fun ⟨hen, hn⟩ hiter => hcap ⟨hen, hn, hiter⟩⟩

namespace CoreState.Inv

variable {s : CoreState cfg} (h : s.Inv)
include h

/-- A load error keeps the core in IDLE, so a core outside IDLE has none. -/
theorem loadErr_of_not_idle (hidle : s.runState ≠ .idle) : s.loadErr ≠ true := fun he => hidle (h.loadErrIdle he)

theorem faultCode_of_not_faulted (hf : s.runState ≠ .faulted) : s.faultCode = 0 :=
  not_not.mp fun hne => hf (h.faultCodeIff.mpr hne)

/-- A running core below its cap counts without wrapping (10_state R45). -/
theorem iter_add_one_lt (hrun : s.runState = .running) (hcap : s.CapSet) (hne : s.iter + 1 ≠ s.capN) :
    (s.iter + 1).toNat < s.capN.toNat := by
  have hlt := h.capRunning hrun hcap
  have hmax := s.capN.isLt
  have hadd : (s.iter + 1).toNat = s.iter.toNat + 1 := by
    rw [BitVec.toNat_add]
    exact Nat.mod_eq_of_lt (Nat.lt_of_le_of_lt hlt hmax)
  have hne' : (s.iter + 1).toNat ≠ s.capN.toNat := fun he => hne (BitVec.eq_of_toNat_eq he)
  omega

theorem haltNormal (hrun : s.runState = .running) : s.haltNormal.Inv :=
  { h with
    faultCodeIff := iff_of_false nofun (not_not_intro (h.faultCode_of_not_faulted (by simp [hrun])))
    faultPcZero := fun _ => h.faultPcZero (by simp [hrun])
    loadErrIdle := fun he => absurd he (h.loadErr_of_not_idle (by simp [hrun]))
    idleFresh := nofun
    capRunning := nofun
    capReached := nofun }

theorem afterFault (hrun : s.runState = .running) {code : BitVec 4} (hcode : code = 1 ∨ code = 2 ∨ code = 3) :
    (s.afterFault code).Inv :=
  { h with
    faultCodeIff := iff_of_true rfl (by rcases hcode with rfl | rfl | rfl <;> simp [CoreState.afterFault])
    faultCodeKnown := by rcases hcode with rfl | rfl | rfl <;> simp [CoreState.afterFault]
    faultPcZero := fun hf => absurd rfl hf
    loadErrIdle := fun he => absurd he (h.loadErr_of_not_idle (by simp [hrun]))
    idleFresh := nofun
    capRunning := nofun
    capReached := nofun }

theorem afterExecuting (hrun : s.runState = .running) (k : Fin cfg.NREG) (v : Word cfg.W) :
    (s.afterExecuting k v).Inv := by
  have hfault : (s.afterExecuting k v).faultCode = 0 := h.faultCode_of_not_faulted (by simp [hrun])
  have hpc : (s.afterExecuting k v).faultPc = 0 := h.faultPcZero (by simp [hrun])
  have herr : (s.afterExecuting k v).loadErr ≠ true := h.loadErr_of_not_idle (by simp [hrun])
  rcases s.afterExecuting_runState_cases hrun k v with ⟨hstate, hset, hreached⟩ | ⟨hstate, hbelow⟩
  · exact { h with
      faultCodeIff := by simp [hstate, hfault]
      faultPcZero := fun _ => hpc
      loadErrIdle := fun he => absurd he herr
      idleFresh := by simp [hstate]
      capRunning := by simp [hstate]
      capReached := fun _ => ⟨hset, hreached⟩ }
  · exact { h with
      faultCodeIff := by simp [hstate, hfault]
      faultPcZero := fun _ => hpc
      loadErrIdle := fun he => absurd he herr
      idleFresh := by simp [hstate]
      capRunning := fun _ hset => h.iter_add_one_lt hrun hset (hbelow hset)
      capReached := by simp [hstate] }

end CoreState.Inv

/-- Settles O42: each answer of a step in `step_cases` keeps the invariant. -/
theorem everyStepKeepsTheInvariant : Obligations.EveryStepKeepsTheInvariant := by
  intro cfg s h
  rcases step_cases s with ⟨-, hs⟩ | ⟨hrun, -, hs⟩ | ⟨code, hcode, hrun, hs⟩ | ⟨_, k, v, hrun, -, -, -, hs⟩
  · exact ⟨s, hs, h⟩
  · exact ⟨s.haltNormal, hs, h.haltNormal hrun⟩
  · exact ⟨s.afterFault code, hs, h.afterFault hrun hcode⟩
  · exact ⟨s.afterExecuting k v, hs, h.afterExecuting hrun k v⟩

/-! ### The operations of the host -/

theorem number_of_coreError {e : LoadError} (he : CoreError e) :
    e.number ≠ 0 ∧ e.number ∈ ([0, 4, 6, 7, 8, 9] : List (BitVec 4)) := by
  rcases he with rfl | rfl | rfl | rfl | rfl <;> simp [LoadError.number]

namespace CoreState.Inv

variable {s : CoreState cfg} (h : s.Inv)
include h

theorem recordLoadError (hidle : s.runState = .idle) {e : LoadError} (he : CoreError e) :
    (s.recordLoadError e).Inv := by
  unfold CoreState.recordLoadError
  split
  · exact h
  · obtain ⟨hne, hknown⟩ := number_of_coreError he
    exact { h with
      loadCodeIff := iff_of_true rfl hne
      loadCodeKnown := hknown
      loadErrIdle := fun _ => hidle }

/-- START enters RUNNING with ITER 0, which is below every cap that can be in force (70_reset_and_hazards R245). -/
theorem enterRunning (hidle : s.runState = .idle) (herr : s.loadErr = false) :
    CoreState.Inv { s with runState := .running } :=
  { h with
    faultCodeIff := iff_of_false nofun (not_not_intro (h.faultCode_of_not_faulted (by simp [hidle])))
    faultPcZero := fun _ => h.faultPcZero (by simp [hidle])
    loadErrIdle := by simp [herr]
    idleFresh := nofun
    capRunning := fun _ hcap => by
      have hiter : s.iter = 0 := (h.idleFresh hidle).2
      have hpos : 0 < s.capN.toNat := Nat.pos_of_ne_zero fun hn => hcap.2 (BitVec.eq_of_toNat_eq hn)
      simpa [hiter] using hpos
    capReached := nofun }

/-- In IDLE the cap is not read, so any cap may be written (10_state R44). -/
theorem writeCap (hidle : s.runState = .idle) (en : Bool) (n : BitVec CW) :
    CoreState.Inv { s with capEn := en, capN := n } :=
  { h with
    capRunning := by simp [hidle]
    capReached := by simp [hidle] }

theorem applyOp (op : HostOp) : (s.applyOp op).Inv := by
  rcases s.applyOp_cases op with hop | ⟨-, _, hop⟩ | ⟨-, _, hop⟩ | ⟨hidle, en, hop⟩ | ⟨hidle, n, hop⟩ |
    ⟨-, p, w, _, hp, -, hop⟩ | ⟨hidle, e, he, hop⟩ | ⟨hidle, herr, -, hop⟩ <;> rw [hop]
  · exact h
  · exact { h with }
  · exact { h with }
  · exact h.writeCap hidle en s.capN
  · exact h.writeCap hidle s.capEn n
  · exact { h with imemCanonical := Memory.wf_write _ p w s.imem h.imemCanonical hp }
  · exact h.recordLoadError hidle he
  · exact h.enterRunning hidle herr

end CoreState.Inv

/-! ### One clock cycle -/

/-- Everything a clock cycle can do: reset, the host's operation in IDLE, or the step. -/
theorem cycle_cases (inp : HostInput) (s : CoreState cfg) :
    cycle inp ⟨cfg, s⟩ = .next ⟨cfg, CoreState.reset cfg⟩ ∨
    (∃ op, cycle inp ⟨cfg, s⟩ = .next ⟨cfg, s.applyOp op⟩) ∨
    cycle inp ⟨cfg, s⟩ = step ⟨cfg, s⟩ := by
  unfold cycle
  split
  · exact .inl rfl
  split
  · exact .inr (.inl ⟨_, rfl⟩)
  · exact .inr (.inr rfl)

/-- Settles O43: the operations by `applyOp_cases`, the cycle by reset, operation or step. -/
theorem everyHostOperationKeepsTheInvariant : Obligations.EveryHostOperationKeepsTheInvariant := by
  intro cfg s h
  refine ⟨h.applyOp, fun inp => ?_⟩
  rcases cycle_cases inp s with hc | ⟨op, hc⟩ | hc
  · exact ⟨_, hc, reset_inv cfg⟩
  · exact ⟨_, hc, h.applyOp op⟩
  · rw [hc]
    exact everyStepKeepsTheInvariant cfg s h

end Sys2Proof.Machine
end

section
/-!
PROOFS. What an executed instruction and a step leave unchanged, what the host reads, and what its writes do
(10_state R20, R23, R33, R40 to R47; 20_memory R61, R64; 40_execution_cycle R121, R128, R142).
-/

namespace Sys2Proof.Machine

variable {cfg : Config}

/-! ### Frames -/

/-- An executed instruction writes only its target and the ip register (10_state R23, R36). -/
theorem CoreState.afterExecuting_getElem_of_ne (s : CoreState cfg) (k r : Fin cfg.NREG) (v : Word cfg.W)
    (hk : r ≠ k) (hip : r ≠ s.ipsel) : (s.afterExecuting k v).x[r] = s.x[r] := by
  rw [CoreState.afterExecuting_getElem, if_neg hip, if_neg hk]

/-- ITER counts modulo 2^CW (10_state R45). -/
theorem CoreState.afterExecuting_iter_toNat (s : CoreState cfg) (k : Fin cfg.NREG) (v : Word cfg.W) :
    (s.afterExecuting k v).iter.toNat = (s.iter.toNat + 1) % 2 ^ CW := BitVec.toNat_add s.iter 1

/-- Settles O26: the next state is `afterExecuting` of operand c, which writes x, ITER and STATE only. -/
theorem executedInstructionsChangeOnlyTargetIpAndCount :
    Obligations.ExecutedInstructionsChangeOnlyTargetIpAndCount := by
  intro cfg s i hvalid
  rcases exec_cases i s with ⟨-, k, v, hk, hexec⟩ | ⟨hinvalid, -⟩
  · exact ⟨k, s.afterExecuting k v, hk, hexec, fun r => s.afterExecuting_getElem_of_ne k r v, fun _ => rfl,
      rfl, rfl, rfl, rfl, rfl, rfl, rfl, rfl, rfl, s.afterExecuting_iter_toNat k v, rfl⟩
  · simp [hvalid] at hinvalid

/-- Settles O29: none of the four answers of a step touches these components. -/
theorem stepsKeepProgramAndConfiguration : Obligations.StepsKeepProgramAndConfiguration := by
  intro cfg s
  rcases step_cases s with ⟨-, hs⟩ | ⟨-, -, hs⟩ | ⟨code, -, -, hs⟩ | ⟨_, k, v, -, -, -, -, hs⟩
  · exact ⟨s, hs, rfl, rfl, rfl, rfl, rfl, rfl, rfl⟩
  · exact ⟨s.haltNormal, hs, rfl, rfl, rfl, rfl, rfl, rfl, rfl⟩
  · exact ⟨s.afterFault code, hs, rfl, rfl, rfl, rfl, rfl, rfl, rfl⟩
  · exact ⟨s.afterExecuting k v, hs, rfl, rfl, rfl, rfl, rfl, rfl, rfl⟩

/-! ### Host reads -/

section status

variable (s : CoreState cfg)

theorem CoreState.status_state : s.status.extractLsb' 0 3 = s.runState.number := by
  apply BitVec.eq_of_getLsbD_eq
  intro i hi
  simp only [CoreState.status, BitVec.getLsbD_extractLsb', BitVec.getLsbD_append, Nat.zero_add, hi, decide_true,
    Bool.true_and, if_true]

theorem CoreState.status_loadErr : s.status.getLsbD 3 = s.loadErr := by
  simp only [CoreState.status, BitVec.getLsbD_append, BitVec.getLsbD_ofBool]
  rfl

theorem CoreState.status_loadCode : s.status.extractLsb' 4 4 = s.loadCode := by
  apply BitVec.eq_of_getLsbD_eq
  intro i hi
  have hstate : ¬4 + i < 3 := by omega
  have herr : ¬4 + i - 3 < 1 := by omega
  have hbit : 4 + i - 3 - 1 = i := by omega
  simp only [CoreState.status, BitVec.getLsbD_extractLsb', BitVec.getLsbD_append, hstate, herr, hbit, hi, decide_true,
    Bool.true_and, if_true, if_false]

theorem CoreState.status_faultCode : s.status.extractLsb' 8 4 = s.faultCode := by
  apply BitVec.eq_of_getLsbD_eq
  intro i hi
  have hstate : ¬8 + i < 3 := by omega
  have herr : ¬8 + i - 3 < 1 := by omega
  have hcode : ¬8 + i - 3 - 1 < 4 := by omega
  have hbit : 8 + i - 3 - 1 - 4 = i := by omega
  simp only [CoreState.status, BitVec.getLsbD_extractLsb', BitVec.getLsbD_append, hstate, herr, hcode, hbit, hi,
    decide_true, Bool.true_and, if_true, if_false]

theorem CoreState.status_reserved : s.status.extractLsb' 12 20 = 0 := by
  apply BitVec.eq_of_getLsbD_eq
  intro i hi
  have hstate : ¬12 + i < 3 := by omega
  have herr : ¬12 + i - 3 < 1 := by omega
  have hcode : ¬12 + i - 3 - 1 < 4 := by omega
  have hfault : ¬12 + i - 3 - 1 - 4 < 4 := by omega
  have hbit : 12 + i - 3 - 1 - 4 - 4 = i := by omega
  simp only [CoreState.status, BitVec.getLsbD_extractLsb', BitVec.getLsbD_append, hstate, herr, hcode, hfault, hbit, hi,
    decide_true, Bool.true_and, if_false]

end status

/-- A number that fits a port reads back from it. -/
theorem toNat_ofNat_of_lt {w n : Nat} (h : n < 2 ^ w) : (BitVec.ofNat w n).toNat = n := by
  rw [BitVec.toNat_ofNat, Nat.mod_eq_of_lt h]

theorem register_lt_two_pow_indexWidth (i : Fin cfg.NREG) : i.val < 2 ^ indexWidth cfg :=
  i.isLt.trans_le (NREG_le_two_pow_indexWidth cfg)

theorem length_lt_two_pow_plenWidth (l : Fin (cfg.MAXPROG + 1)) : l.val < 2 ^ plenWidth cfg :=
  (Nat.lt_succ_iff.mp l.isLt).trans_lt (MAXPROG_lt_two_pow_plenWidth cfg)

theorem CoreState.csrRead_of_ge_seven (s : CoreState cfg) (n : Nat) (hn : 7 ≤ n) : (s.csrRead n).toNat = 0 := by
  obtain ⟨m, rfl⟩ := Nat.exists_eq_add_of_le' hn
  cases m with
  | zero => rfl
  | succ m => rfl

/-- Port RS reaches every register (10_state R33). -/
theorem CoreState.rsData_ofNat (s : CoreState cfg) (i : Fin cfg.NREG) :
    s.rsData (BitVec.ofNat (indexWidth cfg) i.val) = some s.x[i] := by
  have hi := toNat_ofNat_of_lt (register_lt_two_pow_indexWidth i)
  simp [CoreState.rsData, CoreState.readPort, CoreState.reg, hi]

theorem CoreState.snapshot_eq (s : CoreState cfg) :
    s.snapshot = List.ofFn (fun i : Fin cfg.NREG => s.x[i].toInt) := by
  apply List.ext_getElem
  · simp [CoreState.snapshot, CoreState.rsVec]
  · intro n h1 h2
    simp [CoreState.snapshot, CoreState.rsVec]

/-- Settles O48: STATUS field by field, the widths of IPSEL and PLEN, and port RS. -/
theorem hostReadsGiveTheRegistersTheirValues : Obligations.HostReadsGiveTheRegistersTheirValues := by
  intro cfg s
  exact ⟨s.status_state, s.status_loadErr, s.status_loadCode, s.status_faultCode, s.status_reserved, rfl,
    toNat_ofNat_of_lt (register_lt_two_pow_indexWidth s.ipsel),
    toNat_ofNat_of_lt (length_lt_two_pow_plenWidth s.plen), BitVec.toNat_ofBool s.capEn, rfl, rfl, rfl,
    s.csrRead_of_ge_seven, s.rsData_ofNat, s.snapshot_eq⟩

/-! ### Host writes -/

/-- Outside IDLE a host operation does nothing (10_state R40; 20_memory R61). -/
theorem CoreState.applyOp_of_not_idle (s : CoreState cfg) (op : HostOp) (h : s.runState ≠ .idle) :
    s.applyOp op = s := by
  rcases s.applyOp_cases op with hop | ⟨hi, -⟩ | ⟨hi, -⟩ | ⟨hi, -⟩ | ⟨hi, -⟩ | ⟨hi, -⟩ | ⟨hi, -⟩ | ⟨hi, -⟩
  · exact hop
  all_goals exact absurd hi h

theorem cycle_op_of_not_idle (s : CoreState cfg) (op : HostOp) (h : s.runState ≠ .idle) :
    cycle ⟨false, some op⟩ ⟨cfg, s⟩ = step ⟨cfg, s⟩ := by
  unfold cycle
  rw [if_neg (by simp)]
  split
  · rename_i hi _
    exact absurd hi h
  · rfl

theorem cycle_op_of_idle (s : CoreState cfg) (op : HostOp) (h : s.runState = .idle) :
    cycle ⟨false, some op⟩ ⟨cfg, s⟩ = .next ⟨cfg, s.applyOp op⟩ := by
  simp [cycle, h, State.advance]

/-- Settles O49: a host operation acts exactly in IDLE, where the step does nothing. -/
theorem writesOutsideIdleHaveNoEffect : Obligations.WritesOutsideIdleHaveNoEffect := by
  intro cfg s op
  exact ⟨fun h => ⟨s.applyOp_of_not_idle op h, cycle_op_of_not_idle s op h⟩,
    fun h => ⟨step_of_not_running s (by simp [h]), cycle_op_of_idle s op h⟩⟩

theorem CoreState.writeIpsel_of_lt (s : CoreState cfg) (v : Nat) (h : v < cfg.NREG) :
    s.writeIpsel v = { s with ipsel := ⟨v, h⟩ } := dif_pos h

theorem CoreState.writeIpsel_of_ge (s : CoreState cfg) (v : Nat) (h : cfg.NREG ≤ v) :
    s.writeIpsel v = s.recordLoadError .badIpDirective := dif_neg (Nat.not_lt.mpr h)

theorem CoreState.writePlen_of_le (s : CoreState cfg) (v : Nat) (h : v ≤ cfg.MAXPROG) :
    s.writePlen v = { s with plen := ⟨v, Nat.lt_succ_iff.mpr h⟩ } := dif_pos (Nat.lt_succ_iff.mpr h)

theorem CoreState.writePlen_of_gt (s : CoreState cfg) (v : Nat) (h : cfg.MAXPROG < v) :
    s.writePlen v = s.recordLoadError .programTooLong := dif_neg (by omega)

/-- The read-only registers and the numbers above 7 take no write (10_state R40). -/
theorem CoreState.applyOp_readOnly (s : CoreState cfg) (num v : Nat) (h : num = 0 ∨ num = 5 ∨ num = 6 ∨ 8 ≤ num) :
    s.applyOp (.csrWrite num v) = s := by
  rcases h with rfl | rfl | rfl | h
  · rfl
  · rfl
  · rfl
  · obtain ⟨m, rfl⟩ := Nat.exists_eq_add_of_le' h
    rfl

/-- CMD with bit 0 clear is no command (10_state R47). -/
theorem CoreState.applyOp_cmd_zero (s : CoreState cfg) : s.applyOp (.csrWrite 7 0) = s := by
  simp [CoreState.applyOp, CoreState.csrWrite]

theorem ofNat_one_getLsbD_zero (v : Nat) (h : v < 2) : (BitVec.ofNat 1 v).getLsbD 0 = decide (v = 1) := by
  interval_cases v <;> rfl

/-- Settles O50: each write by its own lemma, values that fit the port passing it unchanged. -/
theorem registerWritesInIdle : Obligations.RegisterWritesInIdle := by
  intro cfg s hidle
  have hip := NREG_le_two_pow_indexWidth cfg
  have hlen := MAXPROG_lt_two_pow_plenWidth cfg
  refine ⟨fun v hv => ?ipsel, fun v hv hport => ?ipselIllegal, fun v hv => ?plen, fun v hv hport => ?plenIllegal,
    fun v hv => ?capEn, fun v _ => s.applyOp_capN v hidle, s.applyOp_readOnly, s.applyOp_cmd_zero⟩
  case ipsel =>
    rw [s.applyOp_ipsel v hidle, Nat.mod_eq_of_lt (hv.trans_le hip), s.writeIpsel_of_lt v hv]
    exact ⟨rfl, rfl⟩
  case ipselIllegal =>
    rw [s.applyOp_ipsel v hidle, Nat.mod_eq_of_lt hport, s.writeIpsel_of_ge v hv]
    rfl
  case plen =>
    rw [s.applyOp_plen v hidle, Nat.mod_eq_of_lt (hv.trans_lt hlen), s.writePlen_of_le v hv]
    exact ⟨rfl, rfl⟩
  case plenIllegal =>
    rw [s.applyOp_plen v hidle, Nat.mod_eq_of_lt hport, s.writePlen_of_gt v hv]
    rfl
  case capEn => rw [s.applyOp_capEn v hidle, ofNat_one_getLsbD_zero v hv]

end Sys2Proof.Machine
end

section
/-!
PROOFS. The transfer of an instruction word as bytes (20_memory R65), and the bounds test of the pc in its signed and
unsigned form (20_memory R62, R63; 00_scope R7).
-/

namespace Sys2Proof

variable {cfg : Config}

/-! ### The bytes of a transfer -/

@[simp] theorem length_wordToBytes (w : InstrWord cfg) : (wordToBytes cfg w).length = bytesPerWord cfg := by
  simp [wordToBytes]

theorem getElem?_wordToBytes (w : InstrWord cfg) (k : Nat) (hk : k < bytesPerWord cfg) :
    (wordToBytes cfg w)[k]? = some (w.extractLsb' (8 * k) 8) := by
  simp [wordToBytes, hk]

/-- The bytes of a transfer have room for all bits of the word (20_memory R65). -/
theorem width_le_bytesPerWord (cfg : Config) : 4 * cfg.W ≤ 8 * bytesPerWord cfg := by
  unfold bytesPerWord
  omega

/-- A byte put after a list of n bytes has the weight 2^(8n). -/
theorem bytesToNat_concat (bs : List (BitVec 8)) (b : BitVec 8) :
    bytesToNat (bs ++ [b]) = bytesToNat bs + 2 ^ (8 * bs.length) * b.toNat := by
  induction bs with
  | nil => simp [bytesToNat]
  | cons a bs ih =>
    have hweight : 2 ^ (8 * (a :: bs).length) = 256 * 2 ^ (8 * bs.length) := by
      rw [List.length_cons, Nat.mul_succ, Nat.pow_add, Nat.mul_comm]
    calc bytesToNat (a :: bs ++ [b])
        = a.toNat + 256 * (bytesToNat bs + 2 ^ (8 * bs.length) * b.toNat) := congrArg (a.toNat + 256 * ·) ih
      _ = bytesToNat (a :: bs) + 2 ^ (8 * (a :: bs).length) * b.toNat := by rw [hweight, bytesToNat]; ring

/-- The low n bytes of a vector, least significant first, hold its value modulo 2^(8n). -/
theorem bytesToNat_lowBytes {m : Nat} (v : BitVec m) (n : Nat) :
    bytesToNat ((List.range n).map fun k => v.extractLsb' (8 * k) 8) = v.toNat % 2 ^ (8 * n) := by
  induction n with
  | zero => simp [bytesToNat, Nat.mod_one]
  | succ n ih =>
    have hbyte : (v.extractLsb' (8 * n) 8).toNat = v.toNat / 2 ^ (8 * n) % 2 ^ 8 := by
      rw [BitVec.extractLsb'_toNat, Nat.shiftRight_eq_div_pow]
    rw [List.range_succ, List.map_append, List.map_singleton, bytesToNat_concat, ih, hbyte, List.length_map,
      List.length_range, Nat.mul_succ, Nat.pow_add, Nat.mod_mul]

/-- The bytes of a word hold its unsigned value, since they have room for all its bits. -/
theorem bytesToNat_wordToBytes (w : InstrWord cfg) : bytesToNat (wordToBytes cfg w) = w.toNat := by
  have hfits : w.toNat < 2 ^ (8 * bytesPerWord cfg) :=
    w.isLt.trans_le (Nat.pow_le_pow_right (by omega) (width_le_bytesPerWord cfg))
  rw [wordToBytes, bytesToNat_lowBytes, Nat.mod_eq_of_lt hfits]

@[simp] theorem wordOfBytes_wordToBytes (w : InstrWord cfg) : wordOfBytes cfg (wordToBytes cfg w) = w := by
  rw [wordOfBytes, bytesToNat_wordToBytes, BitVec.ofNat_toNat, BitVec.setWidth_eq]

/-- Settles O6: each byte is the extraction at its bits, and the number the bytes hold is that of the word. -/
theorem transferBytesGiveTheWordBack : Obligations.TransferBytesGiveTheWordBack := by
  intro cfg w
  refine ⟨length_wordToBytes w, width_le_bytesPerWord cfg, ?bits, wordOfBytes_wordToBytes w⟩
  case bits =>
    intro k j hk hj
    rw [getElem?_wordToBytes w k hk, Option.map_some, BitVec.getLsbD_extractLsb']
    simp [hj]

/-! ### The bounds test -/

theorem two_pow_width (cfg : Config) : 2 ^ cfg.W = 2 * 2 ^ (cfg.W - 1) := by
  rw [← pow_succ', Nat.sub_add_cancel (by have := cfg.W_ge; omega)]

/-- A word is negative exactly when its unsigned value is in the upper half (00_scope R9). -/
theorem toInt_neg_iff_half_le (v : Word cfg.W) : v.toInt < 0 ↔ 2 ^ (cfg.W - 1) ≤ v.toNat := by
  rw [BitVec.toInt_neg_iff, two_pow_width]
  omega

/-- A word that is not negative has one value, signed and unsigned. -/
theorem toInt_eq_toNat_of_nonneg (v : Word cfg.W) (h : 0 ≤ v.toInt) : v.toInt = v.toNat := by
  have hhalf := (toInt_neg_iff_half_le v).not.mp (not_lt.mpr h)
  have hpow := two_pow_width cfg
  exact BitVec.toInt_eq_toNat_of_lt (by omega)

/-- PLEN is in the lower half of the unsigned values, because PLEN ≤ MAXPROG ≤ 2^(W-1) - 1 (00_scope R7). -/
theorem length_lt_half (l : Fin (cfg.MAXPROG + 1)) : l.val < 2 ^ (cfg.W - 1) := by
  have hle : l.val ≤ 2 ^ (cfg.W - 1) - 1 := (Nat.lt_succ_iff.mp l.isLt).trans cfg.MAXPROG_le
  have hpos := Nat.two_pow_pos (cfg.W - 1)
  omega

/-- Settles O32: a negative pc fails both tests, as its unsigned value is above every PLEN, and any other pc has one
value in both. -/
theorem boundsTestMayBeUnsigned : Obligations.BoundsTestMayBeUnsigned := by
  intro cfg pc plen
  have hlen := length_lt_half plen
  refine ⟨?agree, fun hneg => ⟨(toInt_neg_iff_half_le pc).mp hneg, hlen⟩⟩
  case agree =>
    rcases lt_or_ge pc.toInt 0 with hneg | hnonneg
    · have hhalf := (toInt_neg_iff_half_le pc).mp hneg
      omega
    · rw [toInt_eq_toNat_of_nonneg pc hnonneg]
      omega

end Sys2Proof
end

section
/-!
PROOFS. The encoding: a well-formed instruction and its word stand for each other, the decoder refuses exactly the
words with a reserved bit or an invalid register operand, and the sample words of the spec (30_encoding R92 to R106).
-/

namespace Sys2Proof

open Machine

variable {cfg : Config}

/-! ### The tuple of a word -/

/-- The decoder's first half reads the tuple of a word exactly when no reserved bit is set (30_encoding R93, R99). -/
theorem readWord_eq_ok_iff (w : InstrWord cfg) (i : Instr) :
    readWord cfg w = .ok i ↔ reservedBits cfg w = 0 ∧
      i = instrOfOpcode (opcodeOf cfg w) (laneA cfg w).toInt (laneB cfg w).toInt (laneC cfg w).toInt := by
  by_cases hres : reservedBits cfg w = 0
  · rw [readWord_of_clear cfg w hres, Except.ok.injEq, and_iff_right hres, eq_comm]
  · rw [readWord_of_reserved cfg w hres]
    exact iff_of_false nofun fun ⟨hclear, _⟩ => hres hclear

/-- The operands of a well-formed instruction are the signed values of its lanes (30_encoding R97, R105). -/
theorem readWord_encode (i : Instr) (hwf : i.wellFormed cfg = true) : readWord cfg (encode cfg i) = .ok i := by
  obtain ⟨hclear, hop, hlanes⟩ := Laws.EncodedLanes.of_any i cfg
  obtain ⟨ha, hb, hc⟩ := hlanes hwf
  rw [readWord_of_clear cfg _ hclear, hop, ha, hb, hc, instrOfOpcode_opcode]

theorem encode_instrOfOpcode (op : BitVec 4) (a b c : Int) :
    encode cfg (instrOfOpcode op a b c) =
      packLanes cfg (op.setWidth cfg.W) (bv cfg.W a) (bv cfg.W b) (bv cfg.W c) := by
  rw [encode, opcode_instrOfOpcode, instrOfOpcode_operands]

/-- A word without reserved bits is the word of its tuple. -/
theorem encode_of_readWord (w : InstrWord cfg) (i : Instr) (hread : readWord cfg w = .ok i) : encode cfg i = w := by
  obtain ⟨hclear, rfl⟩ := (readWord_eq_ok_iff w i).mp hread
  rw [encode_instrOfOpcode, bv_toInt, bv_toInt, bv_toInt, ← opl_eq_of_reserved_zero cfg w hclear, packLanes_lanes]

/-- The tuple of a word has W-bit signed literals, so only its register operands are left to check. -/
theorem wellFormed_of_readWord (w : InstrWord cfg) (i : Instr) (hread : readWord cfg w = .ok i)
    (hvalid : i.registersValid cfg = true) : i.wellFormed cfg = true := by
  obtain ⟨-, rfl⟩ := (readWord_eq_ok_iff w i).mp hread
  apply wellFormed_of_registersValid cfg _ hvalid <;> rw [instrOfOpcode_operands] <;> exact isLiteral_toInt cfg _

/-! ### The two round trips -/

/-- Settles O1: the decoder reads the tuple back, and a well-formed instruction passes its register check. -/
theorem decodeOfEncodeIsTheInstruction : Obligations.DecodeOfEncodeIsTheInstruction := by
  intro cfg i hwf
  exact (decode_eq_ok_iff cfg _ i).mpr ⟨readWord_encode i hwf, registersValid_of_wellFormed cfg i hwf⟩

/-- Settles O2: the encoder puts each lane back, and the decoder has checked the register operands. -/
theorem encodeOfDecodeIsTheWord : Obligations.EncodeOfDecodeIsTheWord := by
  intro cfg w i hdecode
  obtain ⟨hread, hvalid⟩ := (decode_eq_ok_iff cfg w i).mp hdecode
  exact ⟨encode_of_readWord w i hread, wellFormed_of_readWord w i hread hvalid⟩

/-! ### The words the decoder refuses -/

/-- Some operand that the semantic table marks register-mode, or c, is no register index (30_encoding R94, R98). -/
theorem registersInvalid_table (op : BitVec 4) (a b c : Int) :
    (instrOfOpcode op a b c).registersValid cfg = false ↔
      ((semanticTable op).2.1 = .reg ∧ isRegister cfg a = false) ∨
      ((semanticTable op).2.2 = .reg ∧ isRegister cfg b = false) ∨ isRegister cfg c = false := by
  rw [← Bool.not_eq_true, registersValid_table]
  simp only [not_and_or, Classical.not_imp, Bool.not_eq_true]

theorem decode_eq_reservedBits_iff (w : InstrWord cfg) :
    decode cfg w = .error .reservedBits ↔ reservedBits cfg w ≠ 0 := by
  rw [decode_eq]
  split
  next hres => exact iff_of_true rfl hres
  next hclear =>
    refine iff_of_false ?_ hclear
    split <;> exact nofun

/-- A word is refused for its register operands only when no reserved bit is set (30_encoding R99). -/
theorem decode_eq_regIndex_iff (w : InstrWord cfg) :
    decode cfg w = .error .regIndex ↔ reservedBits cfg w = 0 ∧
      (((semanticTable (opcodeOf cfg w)).2.1 = .reg ∧ isRegister cfg (laneA cfg w).toInt = false) ∨
        ((semanticTable (opcodeOf cfg w)).2.2 = .reg ∧ isRegister cfg (laneB cfg w).toInt = false) ∨
        isRegister cfg (laneC cfg w).toInt = false) := by
  rw [← registersInvalid_table, decode_eq]
  split
  next hres => exact iff_of_false nofun fun ⟨hclear, _⟩ => hres hclear
  next hclear =>
    rw [and_iff_right (not_not.mp hclear)]
    split
    next hvalid => simp [hvalid]
    next hinvalid => simpa using hinvalid

/-- Settles O3: the opcode lane is 16 or more exactly when a reserved bit is set, and the register check of the decoder
is the check of the table's columns. -/
theorem decoderRefusesExactlyTheIllegalWords : Obligations.DecoderRefusesExactlyTheIllegalWords := by
  intro cfg w
  have hres := reservedBits_eq_zero_iff cfg w
  refine ⟨?reserved, ?register⟩
  case reserved => rw [decode_eq_reservedBits_iff, ne_eq, hres, not_lt]
  case register => simp only [decode_eq_regIndex_iff, hres, isRegister, decide_eq_false_iff_not]

/-- Settles O4: each word evaluates. -/
theorem sampleWordsDecodeAsTheSpecEncodes : Obligations.SampleWordsDecodeAsTheSpecEncodes :=
  ⟨rfl, rfl, rfl, rfl, rfl, rfl, rfl⟩

end Sys2Proof
end

section
/-!
PROOFS. Program text: an accepted line and the word of its instruction, an accepted text, and the text that the
disassembler prints (30_encoding R82 to R90, R102, R105).
-/

namespace Sys2Proof.Machine

variable {cfg : Config}

/-! ### Accepted text -/

/-- Settles O5: the tokens are those of `instrOfLine_cases`, the lanes those of every encoded instruction. -/
theorem instructionLineEncodesLaneByLane : Obligations.InstructionLineEncodesLaneByLane := by
  intro cfg pos line i hline
  obtain ⟨m, ta, tb, tc, op, a, b, c, htok, hm, ha, hb, hc, -, rfl, -⟩ := instrOfLine_cases pos line i hline
  refine ⟨m, ta, tb, tc, op, a, b, c, htok, hm, ha, hb, hc, ?lanes⟩
  case lanes =>
    have henc := encodedAs_encode cfg (instrOfOpcode op a b c)
    rwa [opcode_instrOfOpcode, instrOfOpcode_operands] at henc

theorem programOfLines_eq_ok (ip n : Nat) (lines : List (List Char)) (p : Program)
    (h : programOfLines cfg ip n lines = .ok p) : p.ip = ip ∧ codeOfLines cfg 0 n lines = .ok p.code := by
  unfold programOfLines at h
  split at h
  · cases h
  · next hcode =>
    cases h
    exact ⟨rfl, hcode⟩

/-- Everything an accepted text is: an ip index of the register file, and accepted lines (30_encoding R83, R84, R90). -/
theorem loadText_cases (mk : IpMarker) (text : List Char) (p : Program) (h : loadText cfg mk text = .ok p) :
    p.ip < cfg.NREG ∧ ∃ n lines, codeOfLines cfg 0 n lines = .ok p.code := by
  unfold loadText at h
  split at h
  · cases h
    exact ⟨(ipDefault cfg).isLt, 1, [], rfl⟩
  split at h
  · obtain ⟨hip, hcode⟩ := programOfLines_eq_ok _ _ _ p h
    exact ⟨hip ▸ (ipDefault cfg).isLt, _, _, hcode⟩
  split at h
  · cases h
  split at h
  · next hd =>
    obtain ⟨hip, hcode⟩ := programOfLines_eq_ok _ _ _ p h
    exact ⟨hip ▸ hd, _, _, hcode⟩
  · cases h

/-- Settles O57: the lines of an accepted text are accepted from position 0 on. -/
theorem acceptedTextIsWellFormed : Obligations.AcceptedTextIsWellFormed := by
  intro cfg mk text p h
  obtain ⟨hip, n, lines, hcode⟩ := loadText_cases mk text p h
  obtain ⟨hlen, hwf⟩ := codeOfLines_cases lines 0 n p.code (Nat.zero_le _) hcode
  exact ⟨hip, by simpa using hlen, hwf⟩

/-! ### The text of an instruction -/

/-- A numeral of a W-bit signed literal reads back as an operand (30_encoding R87). -/
theorem literalOf_decimalOf (n : Int) (h : isLiteral cfg n = true) : literalOf cfg (decimalOf n) = some n := by
  simp only [literalOf, integerOf_decimalOf, h, if_true]

/-- A token that ends the line. -/
theorem tokensFrom_single (l : List Char) (h : ∀ c ∈ l, isBlankChar c = false) (hl : l ≠ []) :
    tokensFrom [] l = [l] := by
  have happ := tokensFrom_append l [] [] h
  simpa [tokensFrom, hl] using happ

/-- The line of an instruction has its four tokens (30_encoding R85, R102). -/
theorem tokensFrom_textOf (i : Instr) :
    tokensFrom [] (textOf i) = [mnemonicTable.getD i.opcode.toNat [], decimalOf i.operands.1,
      decimalOf i.operands.2.1, decimalOf i.operands.2.2] := by
  obtain ⟨hm, hblank⟩ := mnemonicTable_getD i.opcode
  have hnum : ∀ n rest, tokensFrom [] (decimalOf n ++ ' ' :: rest) = decimalOf n :: tokensFrom [] rest :=
    fun n rest => tokensFrom_cons_blank _ rest (isBlankChar_of_mem_decimalOf n) (decimalOf_ne_nil n)
  rw [textOf, tokensFrom_cons_blank _ _ hblank hm, hnum, hnum,
    tokensFrom_single _ (isBlankChar_of_mem_decimalOf _) (decimalOf_ne_nil _)]

/-- A line of a mnemonic and three literals, at a position of IMEM and with valid register operands, is accepted: the
converse of `instrOfLine_cases`. -/
theorem instrOfLine_of_tokens (pos : Nat) (line m ta tb tc : List Char) (op : BitVec 4) (a b c : Int)
    (htok : tokensFrom [] line = [m, ta, tb, tc]) (hm : opcodeOfMnemonic m = some op)
    (ha : literalOf cfg ta = some a) (hb : literalOf cfg tb = some b) (hc : literalOf cfg tc = some c)
    (hpos : pos < cfg.MAXPROG) (hvalid : (instrOfOpcode op a b c).registersValid cfg = true) :
    instrOfLine cfg pos line = .ok (instrOfOpcode op a b c) := by
  simp only [instrOfLine, htok, hm, ha, hb, hc, Nat.not_le.mpr hpos, hvalid, if_true, if_false]

/-- Settles O59: each token reads back as the field it was printed from, and the word decodes to the instruction. -/
theorem disassembledTextReadsBack : Obligations.DisassembledTextReadsBack := by
  intro cfg pos i hwf hpos
  refine ⟨?reads, ?prints⟩
  case reads =>
    obtain ⟨ha, hb, hc⟩ := Laws.EncodedLanes.literals_of_wellFormed cfg i hwf
    have hline := instrOfLine_of_tokens pos (textOf i) _ _ _ _ i.opcode i.operands.1 i.operands.2.1 i.operands.2.2
      (tokensFrom_textOf i) (opcodeOfMnemonic_getD i.opcode) (literalOf_decimalOf _ ha) (literalOf_decimalOf _ hb)
      (literalOf_decimalOf _ hc) hpos
    rw [instrOfOpcode_opcode] at hline
    exact hline (registersValid_of_wellFormed cfg i hwf)
  case prints => rw [disassemble, decodeOfEncodeIsTheInstruction cfg i hwf]

end Sys2Proof.Machine
end

section
/-!
PROOFS. The checked load: what the load port stores, and that no fault is reachable through it (30_encoding R104;
60_exceptions R209, R210, R214; 70_reset_and_hazards R240, R245).
-/

namespace Sys2Proof.Machine

variable {cfg : Config}

/-! ### The load port -/

theorem loadPortCheck_of_tooLong (p : Nat) (w : InstrWord cfg) (hp : cfg.MAXPROG ≤ p) :
    loadPortCheck cfg p w = .error .programTooLong := if_pos hp

theorem loadPortCheck_of_reservedBits (p : Nat) (w : InstrWord cfg) (hp : ¬cfg.MAXPROG ≤ p)
    (hw : decode cfg w = .error .reservedBits) : loadPortCheck cfg p w = .error .badOpcodeField := by
  simp only [loadPortCheck, hp, hw, if_false]

theorem loadPortCheck_of_regIndex (p : Nat) (w : InstrWord cfg) (hp : ¬cfg.MAXPROG ≤ p)
    (hw : decode cfg w = .error .regIndex) : loadPortCheck cfg p w = .error .operandOutOfRange := by
  simp only [loadPortCheck, hp, hw, if_false]

theorem loadPortCheck_of_ok (p : Nat) (w : InstrWord cfg) (i : Instr) (hp : ¬cfg.MAXPROG ≤ p)
    (hw : decode cfg w = .ok i) : loadPortCheck cfg p w = .ok () := by
  simp only [loadPortCheck, hp, hw, if_false]

/-- A word that fails the check only records its load error (30_encoding R104). -/
theorem CoreState.imemWrite_of_error (s : CoreState cfg) (p : Nat) (w : InstrWord cfg) (e : LoadError)
    (hidle : s.runState = .idle) (hcheck : loadPortCheck cfg p w = .error e) :
    s.imemWrite p w = s.recordLoadError e := by
  rw [CoreState.imemWrite, if_pos hidle, hcheck]

/-- A word that passes the check is stored (30_encoding R104). -/
theorem CoreState.imemWrite_of_ok (s : CoreState cfg) (p : Nat) (w : InstrWord cfg)
    (hidle : s.runState = .idle) (hcheck : loadPortCheck cfg p w = .ok ()) :
    s.imemWrite p w = { s with imem := s.imem.write p w } := by
  rw [CoreState.imemWrite, if_pos hidle, hcheck]

/-- A word that the decoder refuses for neither reason decodes (30_encoding R106). -/
theorem exists_decode_eq_ok (w : InstrWord cfg) (hres : decode cfg w ≠ .error .reservedBits)
    (hreg : decode cfg w ≠ .error .regIndex) : ∃ i, decode cfg w = .ok i := by
  cases hw : decode cfg w with
  | ok i => exact ⟨i, rfl⟩
  | error e =>
    cases e with
    | reservedBits => exact absurd hw hres
    | regIndex => exact absurd hw hreg

/-- Settles O52: the three refusals in the order of the check, and the store. -/
theorem loadPortChecksEachWord : Obligations.LoadPortChecksEachWord := by
  intro cfg s p w hidle
  split
  next hp => exact s.imemWrite_of_error p w _ hidle (loadPortCheck_of_tooLong p w hp)
  next hp =>
  split
  next hres =>
    have hw := (decode_eq_reservedBits_iff w).mpr hres
    exact s.imemWrite_of_error p w _ hidle (loadPortCheck_of_reservedBits p w hp hw)
  next hclear =>
  split
  next hbad =>
    have hw := (decode_eq_regIndex_iff w).mpr ⟨not_not.mp hclear, hbad⟩
    exact s.imemWrite_of_error p w _ hidle (loadPortCheck_of_regIndex p w hp hw)
  next hgood =>
    obtain ⟨i, hw⟩ := exists_decode_eq_ok w (mt (decode_eq_reservedBits_iff w).mp hclear)
      fun hreg => hgood ((decode_eq_regIndex_iff w).mp hreg).2
    rw [s.imemWrite_of_ok p w hidle (loadPortCheck_of_ok p w i hp hw)]
    exact ⟨Memory.read_write p w s.imem, rfl⟩

/-! ### A loaded core -/

theorem reset_loaded (cfg : Config) : (CoreState.reset cfg).Loaded where
  wordsLegal := nofun
  complete hidle := absurd rfl hidle
  notFaulted := nofun

namespace CoreState.Loaded

variable {s : CoreState cfg} (h : s.Loaded)
include h

/-- The fetch of a running loaded core finds a legal instruction or is outside the program: below PLEN there is a word,
and it decodes (60_exceptions R214). -/
theorem fetch_cases (hrun : s.runState = .running) :
    s.fetch = .outside ∨ ∃ i, s.fetch = .instr i ∧ i.registersValid cfg = true := by
  rcases Machine.fetch_cases s with ⟨-, hf⟩ | ⟨hpc, hread, -⟩ | ⟨w, -, hread, hres, -⟩ | ⟨w, i, -, hread, -, hi, hf⟩
  · exact .inl hf
  · obtain ⟨w, hw⟩ := h.complete (by simp [hrun]) s.pc.toNat ((pcInProgram_iff_ripData s).mp hpc)
    cases hread.symm.trans hw
  · obtain ⟨i, hw⟩ := h.wordsLegal _ w hread
    cases ((decode_eq_reservedBits_iff w).mpr hres).symm.trans hw
  · obtain ⟨j, hw⟩ := h.wordsLegal _ w hread
    obtain ⟨hj, hvalid⟩ := (decode_eq_ok_iff cfg w j).mp hw
    cases hi.symm.trans hj
    exact .inr ⟨i, hf, hvalid⟩

/-- A running loaded core takes the bounds halt or executes an instruction: its step raises no fault. -/
theorem step_cases (hrun : s.runState = .running) :
    step ⟨cfg, s⟩ = .next ⟨cfg, s.haltNormal⟩ ∨
    ∃ k v, step ⟨cfg, s⟩ = .next ⟨cfg, s.afterExecuting k v⟩ := by
  rcases h.fetch_cases hrun with hf | ⟨i, hf, hvalid⟩
  · exact .inl (step_of_fetch_outside s hrun hf)
  · rcases exec_cases i s with ⟨-, k, v, -, hexec⟩ | ⟨hinvalid, -⟩
    · exact .inr ⟨k, v, (step_of_fetch_instr s hrun i hf).trans hexec⟩
    · simp [hvalid] at hinvalid

/-- A change of a loaded core that leaves IMEM and PLEN and does not go from IDLE to another STATE keeps it loaded, when
it raises no fault. -/
theorem of_same_program {t : CoreState cfg} (himem : t.imem = s.imem) (hplen : t.plen = s.plen)
    (hidle : t.runState ≠ .idle → s.runState ≠ .idle) (hf : t.runState ≠ .faulted) : t.Loaded where
  wordsLegal := by
    rw [himem]
    exact h.wordsLegal
  complete ht := by
    rw [himem, hplen]
    exact h.complete (hidle ht)
  notFaulted := hf

/-- Every step of a loaded core keeps it loaded. -/
theorem exists_step : ∃ t : CoreState cfg, step ⟨cfg, s⟩ = .next ⟨cfg, t⟩ ∧ t.Loaded := by
  by_cases hrun : s.runState = .running
  · have hne : s.runState ≠ .idle := by simp [hrun]
    rcases h.step_cases hrun with hs | ⟨k, v, hs⟩
    · exact ⟨_, hs, h.of_same_program rfl rfl (fun _ => hne) nofun⟩
    · refine ⟨_, hs, h.of_same_program rfl rfl (fun _ => hne) ?_⟩
      rcases s.afterExecuting_runState_cases hrun k v with ⟨hstate, -⟩ | ⟨hstate, -⟩ <;> simp [hstate]
  · exact ⟨s, step_of_not_running s hrun, h⟩

/-- The load port stores only words that decode (30_encoding R104). -/
theorem writeImem (hidle : s.runState = .idle) (p : Nat) (w : InstrWord cfg) (i : Instr) (hw : decode cfg w = .ok i) :
    CoreState.Loaded { s with imem := Memory.write p w s.imem } where
  wordsLegal q v hv := by
    rw [Memory.read_write] at hv
    split at hv
    · cases hv
      exact ⟨i, hw⟩
    · exact h.wordsLegal q v hv
  complete hne := absurd hidle hne
  notFaulted := h.notFaulted

/-- START enters RUNNING only with every position below PLEN written (70_reset_and_hazards R245). -/
theorem enterRunning (hcomplete : s.programComplete = true) : CoreState.Loaded { s with runState := .running } where
  wordsLegal := h.wordsLegal
  complete _ := s.programComplete_iff.mp hcomplete
  notFaulted := nofun

/-- In IDLE the length is not yet held against the memory, so any length may be written (10_state R42). -/
theorem writePlen (hidle : s.runState = .idle) (l : Fin (cfg.MAXPROG + 1)) : CoreState.Loaded { s with plen := l } where
  wordsLegal := h.wordsLegal
  complete hne := absurd hidle hne
  notFaulted := h.notFaulted

theorem applyOp (op : HostOp) : (s.applyOp op).Loaded := by
  rcases s.applyOp_cases op with hop | ⟨-, _, hop⟩ | ⟨hidle, l, hop⟩ | ⟨-, _, hop⟩ | ⟨-, _, hop⟩ |
    ⟨hidle, p, w, i, -, hw, hop⟩ | ⟨-, e, -, hop⟩ | ⟨-, -, hcomplete, hop⟩ <;> rw [hop]
  · exact h
  · exact { h with }
  · exact h.writePlen hidle l
  · exact { h with }
  · exact { h with }
  · exact h.writeImem hidle p w i hw
  · exact h.of_same_program (by simp) (by simp) (by simp) (by simpa using h.notFaulted)
  · exact h.enterRunning hcomplete

end CoreState.Loaded

/-- Settles O44: reset stores nothing, a host operation stores only checked words, and a step raises no fault. -/
theorem checkedLoadIsKept : Obligations.CheckedLoadIsKept := by
  intro cfg
  refine ⟨reset_loaded cfg, fun s inp h => ?_⟩
  rcases cycle_cases inp s with hc | ⟨op, hc⟩ | hc
  · exact ⟨_, hc, reset_loaded cfg⟩
  · exact ⟨_, hc, h.applyOp op⟩
  · rw [hc]
    exact h.exists_step

/-- What every cycle keeps, every sequence of cycles keeps. -/
theorem cycles_keep (P : CoreState cfg → Prop)
    (hkeep : ∀ s inp, P s → ∃ t, cycle inp ⟨cfg, s⟩ = .next ⟨cfg, t⟩ ∧ P t) (inputs : List HostInput)
    (s : CoreState cfg) (hs : P s) : ∃ t, cycles inputs ⟨cfg, s⟩ = .next ⟨cfg, t⟩ ∧ P t := by
  induction inputs generalizing s with
  | nil => exact ⟨s, rfl, hs⟩
  | cons inp rest ih =>
    obtain ⟨t, hc, ht⟩ := hkeep s inp hs
    simp only [cycles, hc]
    exact ih t ht

/-- Settles O45: from reset every sequence of cycles keeps the core loaded and its invariant, by which FAULT_CODE is 0
outside FAULTED. -/
theorem faultsAreUnreachableThroughTheLoadPort : Obligations.FaultsAreUnreachableThroughTheLoadPort := by
  intro cfg inputs
  obtain ⟨t, hc, hloaded⟩ := cycles_keep CoreState.Loaded (checkedLoadIsKept cfg).2 inputs _ (reset_loaded cfg)
  obtain ⟨t', hc', hinv⟩ := cycles_keep CoreState.Inv
    (fun s inp hs => (everyHostOperationKeepsTheInvariant cfg s hs).2 inp) inputs _ (reset_inv cfg)
  cases hc.symm.trans hc'
  exact ⟨t, hc, hloaded.notFaulted, hinv.faultCode_of_not_faulted hloaded.notFaulted⟩

end Sys2Proof.Machine
end

section
/-!
PROOFS. The execution cycle: what a step does with a fetched word, the fall-through, the idioms of 30_encoding R103,
the two halts and the cap, the empty program, and the terminal states (40_execution_cycle R120 to R142).
-/

namespace Sys2Proof.Machine

variable {cfg : Config}

/-! ### The step at a fetched word -/

/-- The decoder refuses a word for its register operands exactly when it reads a tuple that fails the register check
(30_encoding R99). -/
theorem decode_eq_regIndex_iff_readWord (w : InstrWord cfg) :
    decode cfg w = .error .regIndex ↔ ∃ i, readWord cfg w = .ok i ∧ i.registersValid cfg = false := by
  simp only [decode_eq_regIndex_iff, ← registersInvalid_table, readWord_eq_ok_iff, and_assoc, exists_and_left,
    exists_eq_left]

theorem fetch_of_readWord_ok (s : CoreState cfg) (hpc : s.pcInProgram = true) {w : InstrWord cfg}
    (hread : Memory.read s.imem s.x[s.ipsel].toNat = some w) {i : Instr} (hi : readWord cfg w = .ok i) :
    s.fetch = .instr i := by
  have hread' : Memory.read s.imem s.pc.toNat = some w := hread
  simp only [CoreState.fetch, hpc, hread', hi, if_true]

theorem fetch_of_reservedBits (s : CoreState cfg) (hpc : s.pcInProgram = true) {w : InstrWord cfg}
    (hread : Memory.read s.imem s.x[s.ipsel].toNat = some w) (hres : reservedBits cfg w ≠ 0) :
    s.fetch = .fault .illegalOpcode := by
  have hread' : Memory.read s.imem s.pc.toNat = some w := hread
  simp only [CoreState.fetch, hpc, hread', readWord_of_reserved cfg w hres, Illegal.fault, if_true]

/-- With an invalid register operand exec is the fault REG_INDEX_OUT_OF_RANGE (60_exceptions R213). -/
theorem exec_of_registersInvalid (s : CoreState cfg) (i : Instr) (hinvalid : i.registersValid cfg = false) :
    exec i ⟨cfg, s⟩ = .next ⟨cfg, s.afterFault 2⟩ := by
  rcases exec_cases i s with ⟨hvalid, -⟩ | ⟨-, hexec⟩
  · simp [hinvalid] at hvalid
  · exact hexec

/-- With valid register operands exec executes the instruction, its target being operand c. -/
theorem exec_of_registersValid (s : CoreState cfg) (i : Instr) (hvalid : i.registersValid cfg = true) :
    ∃ (k : Fin cfg.NREG) (v : Word cfg.W), (k.val : Int) = i.operands.2.2 ∧
      exec i ⟨cfg, s⟩ = .next ⟨cfg, s.afterExecuting k v⟩ := by
  rcases exec_cases i s with ⟨-, hexec⟩ | ⟨hinvalid, -⟩
  · exact hexec
  · simp [hinvalid] at hvalid

section fetched

variable {s : CoreState cfg} {w : InstrWord cfg} (hrun : s.runState = .running) (hlo : 0 ≤ s.x[s.ipsel].toInt)
  (hhi : s.x[s.ipsel].toInt < s.plen.val) (hread : Memory.read s.imem s.x[s.ipsel].toNat = some w)
include hrun hlo hhi hread

theorem step_of_readWord_ok {i : Instr} (hi : readWord cfg w = .ok i) : step ⟨cfg, s⟩ = exec i ⟨cfg, s⟩ :=
  step_of_fetch_instr s hrun i (fetch_of_readWord_ok s ((pcInProgram_iff s).mpr ⟨hlo, hhi⟩) hread hi)

theorem step_of_reservedBits (hres : reservedBits cfg w ≠ 0) : step ⟨cfg, s⟩ = .next ⟨cfg, s.afterFault 1⟩ :=
  step_of_fetch_fault s hrun _ (fetch_of_reservedBits s ((pcInProgram_iff s).mpr ⟨hlo, hhi⟩) hread hres)

/-- A word that decodes is executed: its operands have passed the register check. -/
theorem step_executes_of_decode_ok {i : Instr} (hi : decode cfg w = .ok i) :
    ∃ (k : Fin cfg.NREG) (v : Word cfg.W), (k.val : Int) = i.operands.2.2 ∧
      step ⟨cfg, s⟩ = .next ⟨cfg, s.afterExecuting k v⟩ := by
  obtain ⟨hword, hvalid⟩ := (decode_eq_ok_iff cfg w i).mp hi
  rw [step_of_readWord_ok hrun hlo hhi hread hword]
  exact exec_of_registersValid s i hvalid

end fetched

/-- Settles O27: the decoder's answer decides what the fetch finds, and exec makes the register check. -/
theorem stepRunsTheDecodedInstruction : Obligations.StepRunsTheDecodedInstruction := by
  intro cfg s w hrun hlo hhi hread
  refine ⟨fun i hi => ?legal, fun hw => ?reserved, fun hw => ?register⟩
  case legal => exact step_of_readWord_ok hrun hlo hhi hread ((decode_eq_ok_iff cfg w i).mp hi).1
  case reserved => exact step_of_reservedBits hrun hlo hhi hread ((decode_eq_reservedBits_iff w).mp hw)
  case register =>
    obtain ⟨i, hi, hinvalid⟩ := (decode_eq_regIndex_iff_readWord w).mp hw
    rw [step_of_readWord_ok hrun hlo hhi hread hi, exec_of_registersInvalid s i hinvalid]

/-! ### The fall-through -/

/-- A pc inside the program is below the largest signed word, so one past it does not wrap (40_execution_cycle R132). -/
theorem toInt_add_one_of_lt_length (v : Word cfg.W) (l : Fin (cfg.MAXPROG + 1)) (h : v.toInt < l.val) :
    (v + bv cfg.W 1).toInt = v.toInt + 1 := by
  rcases toInt_add_one_cases v with hnext | ⟨hlast, -⟩
  · exact hnext
  · have hlen : (l.val : Int) < 2 ^ (cfg.W - 1) := by exact_mod_cast length_lt_half l
    omega

/-- An instruction with another target than the ip register moves the pc to the next position (10_state R36). -/
theorem CoreState.afterExecuting_ipsel_getElem_of_ne (s : CoreState cfg) (k : Fin cfg.NREG) (v : Word cfg.W)
    (hk : k ≠ s.ipsel) : (s.afterExecuting k v).x[s.ipsel] = s.x[s.ipsel] + bv cfg.W 1 := by
  rw [CoreState.afterExecuting_getElem, if_pos rfl, if_neg hk]

/-- Settles O36: the target is operand c, so the ip register takes only the increment, which PLEN keeps from wrapping. -/
theorem fallThroughAddsOneToThePosition : Obligations.FallThroughAddsOneToThePosition := by
  intro cfg s w i hrun hlo hhi hread hi hc
  obtain ⟨k, v, hk, hstep⟩ := step_executes_of_decode_ok hrun hlo hhi hread hi
  have hne : k ≠ s.ipsel := by
    rintro rfl
    exact hc hk.symm
  refine ⟨s.afterExecuting k v, hstep, rfl, ?_⟩
  rw [s.afterExecuting_ipsel_getElem_of_ne k v hne, toInt_add_one_of_lt_length _ s.plen hhi]

/-! ### The idioms -/

/-- The target of an instruction takes its result, unless it is the ip register (10_state R36). -/
theorem CoreState.afterExecuting_getElem_target (s : CoreState cfg) (k : Fin cfg.NREG) (v : Word cfg.W)
    (hk : k ≠ s.ipsel) : (s.afterExecuting k v).x[k] = v := by
  rw [CoreState.afterExecuting_getElem, if_neg hk, if_pos rfl]

section exec

variable (s : CoreState cfg) (a b c : Fin cfg.NREG) (n : Int)

theorem exec_setr : exec (.setr a.val n c.val) ⟨cfg, s⟩ = .next ⟨cfg, s.afterExecuting c s.x[a]⟩ :=
  congrArg (State.advance ⟨cfg, s⟩) (formR_valid s a c)

theorem exec_seti (m : Int) : exec (.seti m n c.val) ⟨cfg, s⟩ = .next ⟨cfg, s.afterExecuting c (bv cfg.W m)⟩ :=
  congrArg (State.advance ⟨cfg, s⟩) (formI_valid s c m)

theorem exec_addr :
    exec (.addr a.val b.val c.val) ⟨cfg, s⟩ = .next ⟨cfg, s.afterExecuting c (s.x[a] + s.x[b])⟩ := by
  rw [← fnAdd_eq]
  exact congrArg (State.advance ⟨cfg, s⟩) (formRR_valid fnAdd s a b c)

theorem exec_addi :
    exec (.addi a.val n c.val) ⟨cfg, s⟩ = .next ⟨cfg, s.afterExecuting c (s.x[a] + bv cfg.W n)⟩ := by
  rw [← fnAdd_eq]
  exact congrArg (State.advance ⟨cfg, s⟩) (formRI_valid fnAdd s a c n)

theorem exec_muli :
    exec (.muli a.val n c.val) ⟨cfg, s⟩ = .next ⟨cfg, s.afterExecuting c (s.x[a] * bv cfg.W n)⟩ := by
  rw [← fnMul_eq]
  exact congrArg (State.advance ⟨cfg, s⟩) (formRI_valid fnMul s a c n)

theorem exec_eqri :
    exec (.eqri a.val n c.val) ⟨cfg, s⟩ = .next ⟨cfg, s.afterExecuting c (fnEq cfg.W s.x[a] (bv cfg.W n))⟩ :=
  congrArg (State.advance ⟨cfg, s⟩) (formRI_valid fnEq s a c n)

theorem bv_neg_one_eq_neg (w : Nat) : bv w (-1) = -1#w := by
  rw [bv_neg_one, BitVec.neg_one_eq_allOnes]

/-- A product with -1 is the negation (30_encoding R103). -/
theorem exec_muli_neg_one :
    exec (.muli a.val (-1) c.val) ⟨cfg, s⟩ = .next ⟨cfg, s.afterExecuting c (-s.x[a])⟩ := by
  rw [exec_muli, bv_neg_one_eq_neg, BitVec.mul_neg, BitVec.mul_one]

end exec

theorem bv_neg_toInt (v : Word cfg.W) : bv cfg.W (-v.toInt) = -v := by
  rw [bv, BitVec.ofInt_neg, BitVec.ofInt_toInt]

theorem bv_one_ne_bv_zero (cfg : Config) : bv cfg.W 1 ≠ bv cfg.W 0 := by
  have hw : cfg.W ≠ 0 := by have := cfg.W_ge; omega
  simpa [bv] using hw

/-- Equality with 0 turns the words 0 and 1 into each other (30_encoding R103). -/
theorem fnEq_zero_of_bit (v : Word cfg.W) (hv : v = bv cfg.W 0 ∨ v = bv cfg.W 1) :
    fnEq cfg.W v (bv cfg.W 0) = bv cfg.W 1 - v := by
  rw [fnEq_eq]
  simp only [BitVec.toInt_inj]
  rcases hv with rfl | rfl
  · rw [if_pos rfl]
    simp [bv]
  · rw [if_neg (bv_one_ne_bv_zero cfg)]
    simp [bv]

/-- One less than the negation is the complement (30_encoding R103). -/
theorem neg_add_bv_neg_one (v : Word cfg.W) : -v + bv cfg.W (-1) = ~~~v := by
  rw [bv_neg_one_eq_neg, BitVec.neg_eq_not_add, ← BitVec.sub_eq_add_neg, BitVec.add_sub_cancel]

/-- A copy of a register to itself changes the ip register only (30_encoding R103). -/
theorem CoreState.afterExecuting_self_getElem (s : CoreState cfg) (r j : Fin cfg.NREG) :
    (s.afterExecuting r s.x[r]).x[j] = if j = s.ipsel then s.x[s.ipsel] + bv cfg.W 1 else s.x[j] := by
  rw [CoreState.afterExecuting_getElem]
  by_cases hip : j = s.ipsel
  · rw [if_pos hip, if_pos hip]
    split
    next hr => rw [hr]
    next => rfl
  · rw [if_neg hip, if_neg hip]
    split
    next hj => rw [hj]
    next => rfl

theorem toInt_bv_neg_one (cfg : Config) : (bv cfg.W (-1)).toInt = -1 := by
  have hpos : (0 : Int) < 2 ^ (cfg.W - 1) := by positivity
  exact bv_toInt_of_isLiteral cfg _ ((isLiteral_iff _).mpr ⟨by omega, by omega⟩)

/-- Settles O38: each idiom is its instructions' results, read back at the target or, one further, at the ip register. -/
theorem idiomsHaveTheirEffect : Obligations.IdiomsHaveTheirEffect := by
  intro cfg s q r u n
  refine ⟨?nop, ?jump, ?skip, ?relative, ?halt, fun hr => ⟨?load, ?move, fun hbit => ?not, ?negate,
    fun hur hu => ?subtract, ?complement⟩⟩
  case nop =>
    refine ⟨_, exec_setr s r r 0, fun j hj => ?others, ?ip⟩
    case others => rw [s.afterExecuting_self_getElem, if_neg hj]
    case ip => rw [s.afterExecuting_self_getElem, if_pos rfl]
  case jump =>
    refine ⟨_, exec_seti s s.ipsel 0 (n - 1), ?_⟩
    rw [s.afterExecuting_ipsel_getElem, ← bv_add, Int.sub_add_cancel]
  case skip =>
    refine ⟨_, exec_addi s s.ipsel s.ipsel n, ?_⟩
    rw [s.afterExecuting_ipsel_getElem, bv_add, bv_add, bv_toInt]
  case relative =>
    refine ⟨_, exec_addr s s.ipsel r s.ipsel, ?_⟩
    rw [s.afterExecuting_ipsel_getElem, bv_add, bv_add, bv_toInt, bv_toInt, BitVec.add_assoc, BitVec.add_assoc,
      BitVec.add_comm s.x[r]]
  case halt =>
    refine ⟨_, exec_seti s s.ipsel 0 (-2), ?_⟩
    rw [s.afterExecuting_ipsel_getElem, ← bv_add]
    exact toInt_bv_neg_one cfg
  case load => exact ⟨_, exec_seti s r 0 n, s.afterExecuting_getElem_target r _ hr⟩
  case move => exact ⟨_, exec_setr s q r 0, s.afterExecuting_getElem_target r _ hr⟩
  case not =>
    refine ⟨_, exec_eqri s r r 0, ?_⟩
    rw [s.afterExecuting_getElem_target r _ hr, fnEq_zero_of_bit _ hbit]
  case negate =>
    refine ⟨_, exec_muli_neg_one s q r, ?_⟩
    rw [s.afterExecuting_getElem_target r _ hr, bv_neg_toInt]
  case subtract =>
    have hminuend : (s.afterExecuting u (-s.x[q])).x[r] = s.x[r] :=
      s.afterExecuting_getElem_of_ne u r _ hur.symm hr
    refine ⟨s.afterExecuting u (-s.x[q]), _, exec_muli_neg_one s q u, exec_addr _ r u r, ?_⟩
    rw [(s.afterExecuting u (-s.x[q])).afterExecuting_getElem_target r _ hr, hminuend,
      s.afterExecuting_getElem_target u _ hu, BitVec.sub_eq_add_neg]
  case complement =>
    refine ⟨s.afterExecuting r (-s.x[q]), _, exec_muli_neg_one s q r, exec_addi _ r r (-1), ?_⟩
    rw [(s.afterExecuting r (-s.x[q])).afterExecuting_getElem_target r _ hr, s.afterExecuting_getElem_target r _ hr,
      neg_add_bv_neg_one]

/-! ### The two halts -/

/-- Settles O31: the fetch finds nothing outside [0, PLEN). -/
theorem boundsHaltChangesOnlyTheState : Obligations.BoundsHaltChangesOnlyTheState :=
  fun _ s hrun hpc => step_of_pc_outside s hrun hpc

/-- Without a host operation and without reset a cycle is the step (40_execution_cycle R142). -/
theorem cycle_none (s : State) : cycle ⟨false, none⟩ s = step s := by
  unfold cycle
  rw [if_neg (by simp)]
  split
  next hop => cases hop
  next => rfl

/-- START of the empty program finds it complete (70_reset_and_hazards R245). -/
theorem cycle_start_reset (cfg : Config) :
    cycle ⟨false, some startOp⟩ (State.resetOf cfg) =
      .next ⟨cfg, { CoreState.reset cfg with runState := .running }⟩ := by
  have hcomplete : (CoreState.reset cfg).programComplete = true :=
    (CoreState.reset cfg).programComplete_iff.mpr fun p hp => absurd hp (Nat.not_lt_zero p)
  have hstart : (CoreState.reset cfg).start = { CoreState.reset cfg with runState := .running } := by
    rcases (CoreState.reset cfg).start_cases with ⟨hno, -⟩ | ⟨-, -, -, hs⟩ | ⟨-, -, hincomplete, -⟩
    · simp [CoreState.reset] at hno
    · exact hs
    · simp [hcomplete] at hincomplete
  rw [State.resetOf, cycle_op_of_idle _ _ rfl, CoreState.applyOp_startOp, hstart]

/-- Settles O33: START leaves the pc 0 and PLEN 0, so the first step takes the bounds halt. -/
theorem emptyProgramHaltsAtOnce : Obligations.EmptyProgramHaltsAtOnce := by
  intro cfg
  refine ⟨?halts, rfl, reset_getElem cfg, rfl⟩
  case halts =>
    have hpc : (0 : Int) ≤ (CoreState.reset cfg).x[(CoreState.reset cfg).ipsel].toInt := by
      rw [reset_getElem]
      simp
    have hstep := step_of_pc_outside { CoreState.reset cfg with runState := .running } rfl (.inr hpc)
    simp only [cycles, cycle_start_reset, cycle_none, hstep]

/-! ### The terminal states -/

theorem RunState.terminal_iff (r : RunState) : r.terminal = true ↔ r ≠ .idle ∧ r ≠ .running := by
  cases r <;> simp [RunState.terminal]

/-- Settles O35: a terminal state is neither IDLE, where host operations act, nor RUNNING, where steps do. -/
theorem terminalStatesAreLeftOnlyByReset : Obligations.TerminalStatesAreLeftOnlyByReset := by
  intro cfg s op hterminal
  obtain ⟨hidle, hrun⟩ := s.runState.terminal_iff.mp hterminal
  have hstep := step_of_not_running s hrun
  refine ⟨hstep, ?cycle, fun o => s.applyOp_of_not_idle o hidle, rfl⟩
  case cycle =>
    cases op with
    | none => rw [cycle_none, hstep]
    | some o => rw [cycle_op_of_not_idle s o hidle, hstep]

/-! ### The cap -/

/-- Settles O39: the count reaches the cap in the step of the instruction, whose result is not looked at. -/
theorem capIsReachedBeforeTheBoundsHalt : Obligations.CapIsReachedBeforeTheBoundsHalt := by
  intro cfg s w i hrun hlo hhi hread hi ⟨hen, hn⟩ hreached
  obtain ⟨k, v, -, hstep⟩ := step_executes_of_decode_ok hrun hlo hhi hread hi
  have hcapped : (s.afterExecuting k v).runState = .haltedCapped := if_pos ⟨hen, hn, hreached⟩
  exact ⟨s.afterExecuting k v, hstep, hcapped, hreached, step_of_not_running _ (by simp [hcapped])⟩

/-- n + 1 steps are n steps and one more. -/
theorem steps_succ_of_steps (n : Nat) (s t : State) (h : steps n s = .next t) : steps (n + 1) s = step t := by
  induction n generalizing s with
  | zero =>
    obtain rfl : s = t := by simpa [steps] using h
    cases hstep : step s <;> simp [steps, hstep]
  | succ n ih =>
    rw [steps] at h ⊢
    cases hstep : step s with
    | next s' =>
      rw [hstep] at h
      exact ih s' h
    | fault f => simp [hstep] at h
    | refused f => simp [hstep] at h

/-- A core with the cap in force at N after n ≤ N steps of a run that began with ITER 0: the run has ended early, or
each step has executed an instruction. -/
structure CoreState.CappedAfter (s : CoreState cfg) (N : BitVec CW) (n : Nat) : Prop where
  capSet : s.CapSet
  capN_eq : s.capN = N
  progress : ((s.runState = .haltedNormal ∨ s.runState = .faulted) ∧ s.iter.toNat < n) ∨
    (s.iter.toNat = n ∧ s.runState = if n = N.toNat then .haltedCapped else .running)

namespace CoreState.CappedAfter

variable {s : CoreState cfg} {N : BitVec CW} {n : Nat} (h : s.CappedAfter N n)
include h

/-- The instruction that makes the count n + 1 ends the run exactly when the cap is n + 1 (40_execution_cycle R128). -/
theorem afterExecuting (hcount : s.iter.toNat = n) (hrun : s.runState = .running) (hn : n + 1 ≤ N.toNat)
    (k : Fin cfg.NREG) (v : Word cfg.W) : (s.afterExecuting k v).CappedAfter N (n + 1) := by
  have hiter : (s.iter + 1).toNat = n + 1 := by
    rw [BitVec.toNat_add, hcount]
    exact Nat.mod_eq_of_lt (Nat.lt_of_le_of_lt hn N.isLt)
  have hreached : s.iter + 1 = s.capN ↔ n + 1 = N.toNat := by
    rw [h.capN_eq, ← BitVec.toNat_inj, hiter]
  refine ⟨h.capSet, h.capN_eq, .inr ⟨hiter, ?_⟩⟩
  rcases s.afterExecuting_runState_cases hrun k v with ⟨hstate, -, heq⟩ | ⟨hstate, hne⟩
  · rw [hstate, if_pos (hreached.mp heq)]
  · rw [hstate, if_neg (mt hreached.mpr (hne h.capSet))]

theorem exists_step (hn : n + 1 ≤ N.toNat) :
    ∃ t : CoreState cfg, step ⟨cfg, s⟩ = .next ⟨cfg, t⟩ ∧ t.CappedAfter N (n + 1) := by
  rcases h.progress with ⟨hended, hlt⟩ | ⟨hcount, hstate⟩
  · have hrun : s.runState ≠ .running := by rcases hended with he | he <;> simp [he]
    exact ⟨s, step_of_not_running s hrun, h.capSet, h.capN_eq, .inl ⟨hended, by omega⟩⟩
  · have hrun : s.runState = .running := hstate.trans (if_neg (by omega))
    have hlt : s.iter.toNat < n + 1 := by omega
    rcases step_cases s with ⟨hne, -⟩ | ⟨-, -, hs⟩ | ⟨code, -, -, hs⟩ | ⟨_, k, v, -, -, -, -, hs⟩
    · exact absurd hrun hne
    · exact ⟨s.haltNormal, hs, h.capSet, h.capN_eq, .inl ⟨.inl rfl, hlt⟩⟩
    · exact ⟨s.afterFault code, hs, h.capSet, h.capN_eq, .inl ⟨.inr rfl, hlt⟩⟩
    · exact ⟨s.afterExecuting k v, hs, h.afterExecuting hcount hrun hn k v⟩

end CoreState.CappedAfter

/-- A run that begins with ITER 0 and the cap in force counts its steps up to the cap. -/
theorem exists_steps_cappedAfter (s : CoreState cfg) (hrun : s.runState = .running) (hiter : s.iter = 0)
    (hcap : s.CapSet) (n : Nat) (hn : n ≤ s.capN.toNat) :
    ∃ t : CoreState cfg, steps n ⟨cfg, s⟩ = .next ⟨cfg, t⟩ ∧ t.CappedAfter s.capN n := by
  induction n with
  | zero =>
    have hpos : 0 ≠ s.capN.toNat := fun h0 => hcap.2 (BitVec.eq_of_toNat_eq h0.symm)
    exact ⟨s, rfl, hcap, rfl, .inr ⟨by simp [hiter], by rw [if_neg hpos, hrun]⟩⟩
  | succ n ih =>
    obtain ⟨t, hsteps, ht⟩ := ih (by omega)
    rw [steps_succ_of_steps n _ _ hsteps]
    exact ht.exists_step hn

/-- Settles O40: by induction on the steps, each of which executes one instruction or ends the run. -/
theorem cappedRunExecutesExactlyTheCap : Obligations.CappedRunExecutesExactlyTheCap := by
  intro cfg s hrun hiter hcap n hn
  obtain ⟨t, hsteps, ht⟩ := exists_steps_cappedAfter s hrun hiter hcap n hn
  exact ⟨t, hsteps, ht.progress⟩

end Sys2Proof.Machine
end

section
/-!
PROOFS. The functions ADD and MUL, and the four arithmetic instructions (41_arithmetic R150 to R154).
-/

namespace Sys2Proof.Machine

/-! ### ADD and MUL of words given as integers -/

theorem fnAdd_bv_bv (w : Nat) (m n : Int) : fnAdd w (bv w m) (bv w n) = bv w (m + n) := by
  rw [fnAdd_eq, bv_add]

theorem fnMul_bv_bv (w : Nat) (m n : Int) : fnMul w (bv w m) (bv w n) = bv w (m * n) := by
  rw [fnMul_eq, bv_mul]

/-- One past the top of the signed range is its bottom (00_scope R9). -/
theorem bv_half_eq_bv_neg_half {w : Nat} (hw : 0 < w) : bv w (2 ^ (w - 1)) = bv w (-2 ^ (w - 1)) := by
  have hpow : (2 : Int) ^ w = 2 * 2 ^ (w - 1) := by rw [← pow_succ', Nat.sub_add_cancel hw]
  have hhalf : (2 : Int) ^ (w - 1) = -2 ^ (w - 1) + 2 ^ w := by omega
  calc bv w (2 ^ (w - 1))
      = bv w (-2 ^ (w - 1) + 2 ^ w) := congrArg (bv w) hhalf
    _ = bv w (-2 ^ (w - 1)) := bv_add_two_pow w _

theorem fnMul_smallest_neg_one {w : Nat} (hw : 0 < w) :
    fnMul w (bv w (-2 ^ (w - 1))) (bv w (-1)) = bv w (-2 ^ (w - 1)) := by
  rw [fnMul_bv_bv, Int.neg_mul_neg, Int.mul_one, bv_half_eq_bv_neg_half hw]

theorem fnAdd_largest_one {w : Nat} (hw : 0 < w) :
    fnAdd w (bv w (2 ^ (w - 1) - 1)) (bv w 1) = bv w (-2 ^ (w - 1)) := by
  rw [fnAdd_bv_bv, Int.sub_add_cancel, bv_half_eq_bv_neg_half hw]

theorem fnAdd_smallest_neg_one {w : Nat} (hw : 0 < w) :
    fnAdd w (bv w (-2 ^ (w - 1))) (bv w (-1)) = bv w (2 ^ (w - 1) - 1) := by
  rw [← bv_half_eq_bv_neg_half hw, fnAdd_bv_bv, Int.sub_eq_add_neg]

/-- Settles O7: bv_W turns integer sums and products into ADD and MUL, so a sign row is the sign rule of the integers
and a wrap row is that 2^(W-1) and -2^(W-1) are one word. -/
theorem addAndMultiplyWrapModuloTwoToTheW : Obligations.AddAndMultiplyWrapModuloTwoToTheW := by
  intro w hw p q
  have hpos : 0 < w := by omega
  refine ⟨rfl, fnAdd_signed w p q, rfl, fnMul_signed w p q, ?mulZero, ?zeroMul,
    fun m n _ _ _ => ⟨?negPos, ?posNeg, ?negNeg⟩,
    fnMul_smallest_neg_one hpos, fnAdd_largest_one hpos, fnAdd_smallest_neg_one hpos⟩
  case mulZero => exact (fnMul_eq w p 0).trans BitVec.mul_zero
  case zeroMul => exact (fnMul_eq w 0 q).trans BitVec.zero_mul
  case negPos => rw [fnMul_bv_bv, Int.neg_mul]
  case posNeg => rw [fnMul_bv_bv, Int.mul_neg]
  case negNeg => rw [fnMul_bv_bv, Int.neg_mul_neg]

/-! ### The instructions -/

theorem exec_mulr {cfg : Config} (s : CoreState cfg) (a b c : Fin cfg.NREG) :
    exec (.mulr a.val b.val c.val) ⟨cfg, s⟩ = .next ⟨cfg, s.afterExecuting c (s.x[a] * s.x[b])⟩ := by
  rw [← fnMul_eq]
  exact congrArg (State.advance ⟨cfg, s⟩) (formRR_valid fnMul s a b c)

/-- Settles O10: the result is ADD of two registers, which is bv_W of the signed sum. -/
theorem addrAddsTwoRegisters : Obligations.AddrAddsTwoRegisters := by
  intro cfg s
  refine ⟨fun a b c => ?executes, fun a b c hinvalid => ?faults, fun a b c => ?encoded⟩
  case executes => rw [exec_addr, ← fnAdd_eq, fnAdd_signed]
  case faults => exact exec_of_registersInvalid s (.addr a b c) hinvalid
  case encoded => exact encodedAs_encode cfg (.addr a b c)

/-- Settles O11: the result is ADD of a register and bv_W of the immediate, whatever the immediate. -/
theorem addiAddsAnImmediate : Obligations.AddiAddsAnImmediate := by
  intro cfg s
  refine ⟨fun a c b => ?executes, fun a b c hinvalid => ?faults, fun a b c => ?encoded⟩
  case executes => rw [exec_addi, ← fnAdd_eq, fnAdd_bv]
  case faults => exact exec_of_registersInvalid s (.addi a b c) hinvalid
  case encoded => exact encodedAs_encode cfg (.addi a b c)

/-- Settles O12: the result is MUL of two registers, which is bv_W of the signed product. -/
theorem mulrMultipliesTwoRegisters : Obligations.MulrMultipliesTwoRegisters := by
  intro cfg s
  refine ⟨fun a b c => ?executes, fun a b c hinvalid => ?faults, fun a b c => ?encoded⟩
  case executes => rw [exec_mulr, ← fnMul_eq, fnMul_signed]
  case faults => exact exec_of_registersInvalid s (.mulr a b c) hinvalid
  case encoded => exact encodedAs_encode cfg (.mulr a b c)

/-- Settles O13: the result is MUL of a register and bv_W of the immediate, whatever the immediate. -/
theorem muliMultipliesByAnImmediate : Obligations.MuliMultipliesByAnImmediate := by
  intro cfg s
  refine ⟨fun a c b => ?executes, fun a b c hinvalid => ?faults, fun a b c => ?encoded⟩
  case executes => rw [exec_muli, ← fnMul_eq, fnMul_bv]
  case faults => exact exec_of_registersInvalid s (.muli a b c) hinvalid
  case encoded => exact encodedAs_encode cfg (.muli a b c)

end Sys2Proof.Machine
end

section
/-!
PROOFS. The functions AND and OR, and the four bitwise instructions (42_bitwise R160 to R164).
-/

namespace Sys2Proof.Machine

/-! ### AND and OR of bit patterns -/

theorem fnAnd_eq (w : Nat) (p q : Word w) : fnAnd w p q = p &&& q := rfl

theorem fnOr_eq (w : Nat) (p q : Word w) : fnOr w p q = p ||| q := rfl

/-- The word of -1 is all ones, so AND with it keeps every bit (42_bitwise R160). -/
theorem fnAnd_bv_neg_one (w : Nat) (p : Word w) : fnAnd w p (bv w (-1)) = p := by
  rw [fnAnd_eq, bv_neg_one, BitVec.and_allOnes]

/-- A word is negative exactly when its top bit is set (00_scope R9). -/
theorem toInt_neg_iff_getLsbD_last {w : Nat} (v : Word w) : v.toInt < 0 ↔ v.getLsbD (w - 1) = true := by
  rw [← BitVec.msb_eq_getLsbD_last, BitVec.msb_eq_toInt, decide_eq_true_eq]

/-- Settles O8: the bits are those of the W-bit AND and OR, and the sign of any word is its top bit. -/
theorem andAndOrActOnBitPatterns : Obligations.AndAndOrActOnBitPatterns := by
  intro w _ p q
  refine ⟨fun i _ => ?andBit, fun i _ => ?orBit, fnAnd_bv_neg_one w p,
    toInt_neg_iff_getLsbD_last _, toInt_neg_iff_getLsbD_last _⟩
  case andBit => rw [fnAnd_eq, BitVec.getLsbD_and]
  case orBit => rw [fnOr_eq, BitVec.getLsbD_or]

/-! ### The instructions -/

section exec

variable {cfg : Config} (s : CoreState cfg) (a b c : Fin cfg.NREG) (n : Int)

theorem exec_banr :
    exec (.banr a.val b.val c.val) ⟨cfg, s⟩ = .next ⟨cfg, s.afterExecuting c (s.x[a] &&& s.x[b])⟩ :=
  congrArg (State.advance ⟨cfg, s⟩) (formRR_valid fnAnd s a b c)

theorem exec_bani :
    exec (.bani a.val n c.val) ⟨cfg, s⟩ = .next ⟨cfg, s.afterExecuting c (s.x[a] &&& bv cfg.W n)⟩ :=
  congrArg (State.advance ⟨cfg, s⟩) (formRI_valid fnAnd s a c n)

theorem exec_borr :
    exec (.borr a.val b.val c.val) ⟨cfg, s⟩ = .next ⟨cfg, s.afterExecuting c (s.x[a] ||| s.x[b])⟩ :=
  congrArg (State.advance ⟨cfg, s⟩) (formRR_valid fnOr s a b c)

theorem exec_bori :
    exec (.bori a.val n c.val) ⟨cfg, s⟩ = .next ⟨cfg, s.afterExecuting c (s.x[a] ||| bv cfg.W n)⟩ :=
  congrArg (State.advance ⟨cfg, s⟩) (formRI_valid fnOr s a c n)

end exec

/-- Settles O14: the result is AND of two registers. -/
theorem banrAndsTwoRegisters : Obligations.BanrAndsTwoRegisters := by
  intro cfg s
  refine ⟨exec_banr s, fun a b c hinvalid => ?faults, fun a b c => ?encoded⟩
  case faults => exact exec_of_registersInvalid s (.banr a b c) hinvalid
  case encoded => exact encodedAs_encode cfg (.banr a b c)

/-- Settles O15: the result is AND of a register and bv_W of the immediate, whatever the immediate. -/
theorem baniAndsAnImmediate : Obligations.BaniAndsAnImmediate := by
  intro cfg s
  refine ⟨exec_bani s, fun a b c hinvalid => ?faults, fun a b c => ?encoded⟩
  case faults => exact exec_of_registersInvalid s (.bani a b c) hinvalid
  case encoded => exact encodedAs_encode cfg (.bani a b c)

/-- Settles O16: the result is OR of two registers. -/
theorem borrOrsTwoRegisters : Obligations.BorrOrsTwoRegisters := by
  intro cfg s
  refine ⟨exec_borr s, fun a b c hinvalid => ?faults, fun a b c => ?encoded⟩
  case faults => exact exec_of_registersInvalid s (.borr a b c) hinvalid
  case encoded => exact encodedAs_encode cfg (.borr a b c)

/-- Settles O17: the result is OR of a register and bv_W of the immediate, whatever the immediate. -/
theorem boriOrsAnImmediate : Obligations.BoriOrsAnImmediate := by
  intro cfg s
  refine ⟨exec_bori s, fun a b c hinvalid => ?faults, fun a b c => ?encoded⟩
  case faults => exact exec_of_registersInvalid s (.bori a b c) hinvalid
  case encoded => exact encodedAs_encode cfg (.bori a b c)

end Sys2Proof.Machine
end

section
/-!
PROOFS. The two assignment instructions (43_assignment R170 to R172).
-/

namespace Sys2Proof.Machine

/-- Settles O18: the result is x[a], whatever the unused b. -/
theorem setrCopiesARegister : Obligations.SetrCopiesARegister := by
  intro cfg s
  refine ⟨exec_setr s, fun a b c hinvalid => ?faults, fun a b c => ?encoded⟩
  case faults => exact exec_of_registersInvalid s (.setr a b c) hinvalid
  case encoded => exact encodedAs_encode cfg (.setr a b c)

/-- Settles O19: the result is bv_W of the immediate, whatever the unused b; c is the one register operand. -/
theorem setiLoadsAnImmediate : Obligations.SetiLoadsAnImmediate := by
  intro cfg s
  refine ⟨fun c a b => ?executes, fun a b c hinvalid => ?faults, fun a b c => ?encoded⟩
  case executes => exact exec_seti s c b a
  case faults => exact exec_of_registersInvalid s (.seti a b c) hinvalid
  case encoded => exact encodedAs_encode cfg (.seti a b c)

end Sys2Proof.Machine
end

section
/-!
PROOFS. The functions GT and EQ, and the six comparison instructions (44_comparison R180 to R186).
-/

namespace Sys2Proof.Machine

/-! ### GT and EQ -/

/-- From 2 bits up the integers -1, 0 and 1 are in the signed range, so bv_W keeps their values (00_scope R9). -/
theorem toInt_bv_of_neg_one_le_of_le_one {w : Nat} (hw : 2 ≤ w) (n : Int) (hlo : -1 ≤ n) (hhi : n ≤ 1) :
    (bv w n).toInt = n := by
  have hhalf : (2 : Int) ^ 1 ≤ 2 ^ (w - 1) := pow_le_pow_right₀ (by decide) (by omega)
  exact BitVec.toInt_ofInt_eq_self (by omega) (by omega) (by omega)

theorem fnGt_of_gt {w : Nat} {p q : Word w} (h : p.toInt > q.toInt) : fnGt w p q = bv w 1 := by
  rw [fnGt_eq, if_pos h]

theorem fnGt_of_not_gt {w : Nat} {p q : Word w} (h : ¬p.toInt > q.toInt) : fnGt w p q = bv w 0 := by
  rw [fnGt_eq, if_neg h]

theorem fnEq_of_eq {w : Nat} {p q : Word w} (h : p = q) : fnEq w p q = bv w 1 := by
  rw [fnEq_eq, if_pos (congrArg BitVec.toInt h)]

theorem fnEq_of_ne {w : Nat} {p q : Word w} (h : p ≠ q) : fnEq w p q = bv w 0 := by
  rw [fnEq_eq, if_neg (BitVec.toInt_ne.mpr h)]

/-- Settles O9: the two outcomes of each function, and the signed values of the words -1, 0 and 1. -/
theorem comparisonsGiveZeroOrOne : Obligations.ComparisonsGiveZeroOrOne := by
  intro w hw p q
  have hneg : (bv w (-1)).toInt = -1 := toInt_bv_of_neg_one_le_of_le_one (by omega) _ (by decide) (by decide)
  have hzero : (bv w 0).toInt = 0 := toInt_bv_of_neg_one_le_of_le_one (by omega) _ (by decide) (by decide)
  have hone : (bv w 1).toInt = 1 := toInt_bv_of_neg_one_le_of_le_one (by omega) _ (by decide) (by decide)
  refine ⟨fnGt_of_gt, fnGt_of_not_gt, fnEq_of_eq, fnEq_of_ne, BitVec.toInt_inj.symm, ?gtSelf, ?gtNegOneOne,
    ?oneNeZero⟩
  case gtSelf => exact fnGt_of_not_gt (lt_irrefl _)
  case gtNegOneOne =>
    apply fnGt_of_not_gt
    rw [hneg, hone]
    decide
  case oneNeZero =>
    rw [← BitVec.toInt_ne, hone, hzero]
    decide

/-! ### The instructions -/

section exec

variable {cfg : Config} (s : CoreState cfg) (a b c : Fin cfg.NREG) (n : Int)

theorem exec_gtir :
    exec (.gtir n b.val c.val) ⟨cfg, s⟩ = .next ⟨cfg, s.afterExecuting c (fnGt cfg.W (bv cfg.W n) s.x[b])⟩ :=
  congrArg (State.advance ⟨cfg, s⟩) (formIR_valid fnGt s b c n)

theorem exec_gtri :
    exec (.gtri a.val n c.val) ⟨cfg, s⟩ = .next ⟨cfg, s.afterExecuting c (fnGt cfg.W s.x[a] (bv cfg.W n))⟩ :=
  congrArg (State.advance ⟨cfg, s⟩) (formRI_valid fnGt s a c n)

theorem exec_gtrr :
    exec (.gtrr a.val b.val c.val) ⟨cfg, s⟩ = .next ⟨cfg, s.afterExecuting c (fnGt cfg.W s.x[a] s.x[b])⟩ :=
  congrArg (State.advance ⟨cfg, s⟩) (formRR_valid fnGt s a b c)

theorem exec_eqir :
    exec (.eqir n b.val c.val) ⟨cfg, s⟩ = .next ⟨cfg, s.afterExecuting c (fnEq cfg.W (bv cfg.W n) s.x[b])⟩ :=
  congrArg (State.advance ⟨cfg, s⟩) (formIR_valid fnEq s b c n)

theorem exec_eqrr :
    exec (.eqrr a.val b.val c.val) ⟨cfg, s⟩ = .next ⟨cfg, s.afterExecuting c (fnEq cfg.W s.x[a] s.x[b])⟩ :=
  congrArg (State.advance ⟨cfg, s⟩) (formRR_valid fnEq s a b c)

end exec

/-- Settles O20: the result is GT of bv_W of the immediate and a register, whatever the immediate. -/
theorem gtirComparesImmediateWithRegister : Obligations.GtirComparesImmediateWithRegister := by
  intro cfg s
  refine ⟨fun b c a => ?executes, fun a b c hinvalid => ?faults, fun a b c => ?encoded⟩
  case executes => rw [exec_gtir, fnGt_eq]
  case faults => exact exec_of_registersInvalid s (.gtir a b c) hinvalid
  case encoded => exact encodedAs_encode cfg (.gtir a b c)

/-- Settles O21: the result is GT of a register and bv_W of the immediate, whatever the immediate. -/
theorem gtriComparesRegisterWithImmediate : Obligations.GtriComparesRegisterWithImmediate := by
  intro cfg s
  refine ⟨fun a c b => ?executes, fun a b c hinvalid => ?faults, fun a b c => ?encoded⟩
  case executes => rw [exec_gtri, fnGt_eq]
  case faults => exact exec_of_registersInvalid s (.gtri a b c) hinvalid
  case encoded => exact encodedAs_encode cfg (.gtri a b c)

/-- Settles O22: the result is GT of two registers. -/
theorem gtrrComparesTwoRegisters : Obligations.GtrrComparesTwoRegisters := by
  intro cfg s
  refine ⟨fun a b c => ?executes, fun a b c hinvalid => ?faults, fun a b c => ?encoded⟩
  case executes => rw [exec_gtrr, fnGt_eq]
  case faults => exact exec_of_registersInvalid s (.gtrr a b c) hinvalid
  case encoded => exact encodedAs_encode cfg (.gtrr a b c)

/-- Settles O23: the result is EQ of bv_W of the immediate and a register, whatever the immediate. -/
theorem eqirTestsImmediateAgainstRegister : Obligations.EqirTestsImmediateAgainstRegister := by
  intro cfg s
  refine ⟨fun b c a => ?executes, fun a b c hinvalid => ?faults, fun a b c => ?encoded⟩
  case executes => rw [exec_eqir, fnEq_eq]
  case faults => exact exec_of_registersInvalid s (.eqir a b c) hinvalid
  case encoded => exact encodedAs_encode cfg (.eqir a b c)

/-- Settles O24: the result is EQ of a register and bv_W of the immediate, whatever the immediate. -/
theorem eqriTestsRegisterAgainstImmediate : Obligations.EqriTestsRegisterAgainstImmediate := by
  intro cfg s
  refine ⟨fun a c b => ?executes, fun a b c hinvalid => ?faults, fun a b c => ?encoded⟩
  case executes => rw [exec_eqri, fnEq_eq]
  case faults => exact exec_of_registersInvalid s (.eqri a b c) hinvalid
  case encoded => exact encodedAs_encode cfg (.eqri a b c)

/-- Settles O25: the result is EQ of two registers. -/
theorem eqrrTestsTwoRegisters : Obligations.EqrrTestsTwoRegisters := by
  intro cfg s
  refine ⟨fun a b c => ?executes, fun a b c hinvalid => ?faults, fun a b c => ?encoded⟩
  case executes => rw [exec_eqrr, fnEq_eq]
  case faults => exact exec_of_registersInvalid s (.eqrr a b c) hinvalid
  case encoded => exact encodedAs_encode cfg (.eqrr a b c)

end Sys2Proof.Machine
end

section
/-!
PROOFS. Exceptions: the order of the checks of a step, the precise fault, the load error that stays until reset, and the
parameters a core is built for (60_exceptions R200 to R217; 70_reset_and_hazards R241, R245).
-/

namespace Sys2Proof.Machine

variable {cfg : Config}

/-! ### The checks of a step -/

theorem fetch_of_unwritten (s : CoreState cfg) (hpc : s.pcInProgram = true)
    (hread : Memory.read s.imem s.x[s.ipsel].toNat = none) : s.fetch = .fault .unwrittenInstruction := by
  rcases fetch_cases s with ⟨hout, -⟩ | ⟨-, -, hf⟩ | ⟨w, -, hword, -⟩ | ⟨w, _, -, hword, -⟩
  · cases hpc.symm.trans hout
  · exact hf
  all_goals cases hread.symm.trans hword

section inProgram

variable {s : CoreState cfg} (hrun : s.runState = .running)
  (hpc : 0 ≤ s.x[s.ipsel].toInt ∧ s.x[s.ipsel].toInt < s.plen.val)
include hrun hpc

/-- Inside the program an unwritten entry is the fault UNWRITTEN_INSTRUCTION (60_exceptions R213). -/
theorem step_of_unwritten (hread : Memory.read s.imem s.x[s.ipsel].toNat = none) :
    step ⟨cfg, s⟩ = .next ⟨cfg, s.afterFault 3⟩ :=
  step_of_fetch_fault s hrun _ (fetch_of_unwritten s ((pcInProgram_iff s).mpr hpc) hread)

/-- Without reserved bits and with invalid register operands the step is the fault REG_INDEX_OUT_OF_RANGE: which of the
operands is invalid makes no difference (60_exceptions R213). -/
theorem step_of_invalid_operand {w : InstrWord cfg} (hread : Memory.read s.imem s.x[s.ipsel].toNat = some w)
    (hclear : reservedBits cfg w = 0)
    (hbad : ((semanticTable (opcodeOf cfg w)).2.1 = .reg ∧ isRegister cfg (laneA cfg w).toInt = false) ∨
      ((semanticTable (opcodeOf cfg w)).2.2 = .reg ∧ isRegister cfg (laneB cfg w).toInt = false) ∨
      isRegister cfg (laneC cfg w).toInt = false) :
    step ⟨cfg, s⟩ = .next ⟨cfg, s.afterFault 2⟩ := by
  rw [step_of_readWord_ok hrun hpc.1 hpc.2 hread (readWord_of_clear cfg w hclear)]
  exact exec_of_registersInvalid s _ ((registersInvalid_table _ _ _ _).mpr hbad)

end inProgram

/-- Settles O30: each failed check has its own step lemma, and a word that passes them all is executed. -/
theorem checksAreMadeInOrder : Obligations.ChecksAreMadeInOrder := by
  intro cfg s hrun
  split
  next hout => exact step_of_pc_outside s hrun (by omega)
  next hin =>
  have hpc := not_not.mp hin
  split
  next hread => exact step_of_unwritten hrun hpc hread
  next w hread =>
  split
  next hres => exact step_of_reservedBits hrun hpc.1 hpc.2 hread hres
  next hres =>
  have hclear := not_not.mp hres
  split
  next ha => exact step_of_invalid_operand hrun hpc hread hclear (.inl ha)
  next ha =>
  split
  next hb => exact step_of_invalid_operand hrun hpc hread hclear (.inr (.inl hb))
  next hb =>
  split
  next hc => exact step_of_invalid_operand hrun hpc hread hclear (.inr (.inr hc))
  next hc =>
    have hvalid : (instrOfOpcode (opcodeOf cfg w) (laneA cfg w).toInt (laneB cfg w).toInt
        (laneC cfg w).toInt).registersValid cfg = true := by
      rw [← Bool.not_eq_false, registersInvalid_table]
      exact not_or.mpr ⟨ha, not_or.mpr ⟨hb, hc⟩⟩
    obtain ⟨k, v, hk, hexec⟩ := exec_of_registersValid s _ hvalid
    rw [instrOfOpcode_operands] at hk
    have hstep := step_of_readWord_ok hrun hpc.1 hpc.2 hread (readWord_of_clear cfg w hclear)
    exact ⟨k, v, hk, hstep.trans hexec, hexec⟩

/-! ### Fault entry -/

/-- Settles O34: of the four things a step can do only fault entry ends in FAULTED. -/
theorem faultingStepsArePrecise : Obligations.FaultingStepsArePrecise := by
  intro cfg s t hnot hstep hfaulted
  rcases step_cases s with ⟨-, hs⟩ | ⟨-, -, hs⟩ | ⟨code, hcode, hrun, hs⟩ | ⟨_, k, v, hrun, -, -, -, hs⟩ <;>
    cases hstep.symm.trans hs
  · exact absurd hfaulted hnot
  · cases hfaulted
  · exact ⟨hrun, rfl, rfl, rfl, code, hcode, rfl⟩
  · rcases s.afterExecuting_runState_cases hrun k v with ⟨hstate, -⟩ | ⟨hstate, -⟩ <;> cases hstate.symm.trans hfaulted

/-! ### The record of a load error -/

/-- The core is in IDLE with a load error recorded under this code (60_exceptions R200, R211). -/
structure CoreState.LoadFailed (code : BitVec 4) (s : CoreState cfg) : Prop where
  loadErr : s.loadErr = true
  loadCode : s.loadCode = code
  idle : s.runState = .idle

namespace CoreState.LoadFailed

variable {code : BitVec 4} {s : CoreState cfg} (h : s.LoadFailed code)
include h

/-- A later load error changes nothing, and START is refused (60_exceptions R211; 70_reset_and_hazards R245). -/
theorem applyOp (op : HostOp) : (s.applyOp op).LoadFailed code := by
  rcases s.applyOp_cases op with hop | ⟨-, _, hop⟩ | ⟨-, _, hop⟩ | ⟨-, _, hop⟩ | ⟨-, _, hop⟩ |
    ⟨-, _, _, _, -, -, hop⟩ | ⟨-, e, -, hop⟩ | ⟨-, hnone, -, hop⟩ <;> rw [hop]
  · exact h
  · exact { h with }
  · exact { h with }
  · exact { h with }
  · exact { h with }
  · exact { h with }
  · have hsame : s.recordLoadError e = s := if_pos h.loadErr
    rwa [hsame]
  · cases h.loadErr.symm.trans hnone

theorem applyOps (ops : List HostOp) : (s.applyOps ops).LoadFailed code := by
  induction ops generalizing s with
  | nil => exact h
  | cons op rest ih => exact ih (h.applyOp op)

/-- In IDLE a cycle without reset is the host's operation, if there is one, and no step. -/
theorem exists_cycle (op : Option HostOp) :
    ∃ t : CoreState cfg, cycle ⟨false, op⟩ ⟨cfg, s⟩ = .next ⟨cfg, t⟩ ∧ t.LoadFailed code := by
  cases op with
  | none => exact ⟨s, (cycle_none ⟨cfg, s⟩).trans (step_of_not_running s (by simp [h.idle])), h⟩
  | some op => exact ⟨_, cycle_op_of_idle s op h.idle, h.applyOp op⟩

theorem exists_cycles (inputs : List HostInput) (hrst : ∀ inp ∈ inputs, inp.rst = false) :
    ∃ t : CoreState cfg, cycles inputs ⟨cfg, s⟩ = .next ⟨cfg, t⟩ ∧ t.LoadFailed code := by
  induction inputs generalizing s with
  | nil => exact ⟨s, rfl, h⟩
  | cons inp rest ih =>
    obtain ⟨hinp, hrest⟩ := List.forall_mem_cons.mp hrst
    obtain ⟨rst, op⟩ := inp
    cases hinp
    obtain ⟨t, hc, ht⟩ := h.exists_cycle op
    simp only [cycles, hc]
    exact ih ht hrest

end CoreState.LoadFailed

/-- Settles O51: every operation, and so every cycle without reset, keeps the record and IDLE. -/
theorem firstLoadErrorIsKeptUntilReset : Obligations.FirstLoadErrorIsKeptUntilReset := by
  intro cfg s hidle herr
  have h : s.LoadFailed s.loadCode := ⟨herr, rfl, hidle⟩
  refine ⟨fun ops => ?operations, fun inputs hrst => ?cycles⟩
  case operations =>
    obtain ⟨herr', hcode, hidle'⟩ := h.applyOps ops
    exact ⟨herr', hcode, hidle'⟩
  case cycles =>
    obtain ⟨t, hc, herr', hcode, hidle'⟩ := h.exists_cycles inputs hrst
    exact ⟨t, hc, herr', hcode, hidle'⟩

/-! ### Construction -/

theorem construct_of_nonpos (w : Nat) {n : Int} (m : Nat) (hn : n ≤ 0) :
    construct w n m = .error .registerCount := dif_pos hn

/-- Construction with the parameters of a configuration passes the four checks, which are its constraints (00_scope
R7). -/
theorem construct_config (cfg : Config) : construct cfg.W cfg.NREG cfg.MAXPROG = .ok (State.resetOf cfg) := by
  have hW := cfg.W_ge
  have hpos := cfg.NREG_pos
  have hNREG := cfg.NREG_le
  have hMAXPROG := cfg.MAXPROG_le
  unfold construct
  rw [dif_neg (by omega), dif_neg (by omega), dif_neg (by rw [Int.toNat_natCast]; omega), dif_neg (by omega)]
  rfl

/-- A configuration with given parameters exists exactly within the constraints (00_scope R7). -/
theorem exists_config_iff (w : Nat) (n : Int) (m : Nat) :
    (∃ cfg : Config, cfg.W = w ∧ (cfg.NREG : Int) = n ∧ cfg.MAXPROG = m) ↔
      8 ≤ w ∧ 1 ≤ n ∧ n ≤ 2 ^ (w - 1) - 1 ∧ m ≤ 2 ^ (w - 1) - 1 := by
  have hcast : (2 : Int) ^ (w - 1) = (2 ^ (w - 1) : Nat) := by simp
  constructor
  · rintro ⟨cfg, rfl, rfl, rfl⟩
    have hpos := cfg.NREG_pos
    have hNREG := cfg.NREG_le
    exact ⟨cfg.W_ge, by omega, by omega, cfg.MAXPROG_le⟩
  · rintro ⟨hw, hpos, hn, hm⟩
    exact ⟨⟨w, n.toNat, m, hw, by omega, by omega, hm⟩, rfl, Int.toNat_of_nonneg (by omega), rfl⟩

/-- Settles O56: the checks of construction are the constraints of a configuration, the register count before them. -/
theorem constructionRefusesBadParameters : Obligations.ConstructionRefusesBadParameters := by
  intro w n m
  refine ⟨fun hn => ⟨construct_of_nonpos w m hn, rfl, rfl⟩, ?_⟩
  rw [← exists_config_iff]
  constructor
  · rintro ⟨cfg, rfl, rfl, rfl⟩
    exact ⟨cfg, construct_config cfg, rfl, rfl, rfl⟩
  · rintro ⟨cfg, -, hparams⟩
    exact ⟨cfg, hparams⟩

end Sys2Proof.Machine
end

section
/-!
PROOFS. Reset, START, the iteration cap, and the boot of a program that the text loader accepts (70_reset_and_hazards
R240 to R248).
-/

namespace Sys2Proof.Machine

variable {cfg : Config}

/-- Settles O47: a cycle looks at its reset line first. -/
theorem resetTakesPriority : Obligations.ResetTakesPriority := fun _ _ => if_pos rfl

/-! ### START -/

theorem CoreState.start_of_loadErr (s : CoreState cfg) (herr : s.loadErr = true) : s.start = s := by
  rcases s.start_cases with ⟨-, hs⟩ | ⟨-, hnone, -⟩ | ⟨-, hnone, -⟩
  · exact hs
  · cases herr.symm.trans hnone
  · cases herr.symm.trans hnone

section idle

variable (s : CoreState cfg) (hidle : s.runState = .idle) (herr : s.loadErr = false)
include hidle herr

/-- In IDLE and without a load error START asks only whether the program is complete (70_reset_and_hazards R245). -/
theorem CoreState.start_of_idle :
    s.start = if s.programComplete then { s with runState := .running }
      else { s with loadErr := true, loadCode := 9 } := by
  rcases s.start_cases with ⟨hno, -⟩ | ⟨-, -, hcomplete, hs⟩ | ⟨-, -, hincomplete, hs⟩
  · simp [hidle, herr] at hno
  · rw [hs, if_pos hcomplete]
  · rw [hs, if_neg (by simp [hincomplete]), CoreState.recordLoadError, if_neg (by simp [herr])]
    rfl

theorem CoreState.applyOp_startOp_of_complete
    (hcomplete : ∀ p, p < s.plen.val → ∃ w, Memory.read s.imem p = some w) :
    s.applyOp startOp = { s with runState := .running } := by
  rw [CoreState.applyOp_startOp, s.start_of_idle hidle herr, if_pos (s.programComplete_iff.mpr hcomplete)]

theorem CoreState.applyOp_startOp_of_unwritten {p : Nat} (hp : p < s.plen.val) (hnone : Memory.read s.imem p = none) :
    s.applyOp startOp = { s with loadErr := true, loadCode := 9 } := by
  have hincomplete : ¬s.programComplete = true := fun hcomplete => by
    obtain ⟨w, hw⟩ := s.programComplete_iff.mp hcomplete p hp
    cases hnone.symm.trans hw
  rw [CoreState.applyOp_startOp, s.start_of_idle hidle herr, if_neg hincomplete]

end idle

/-- Settles O53: the two refusals without effect, the incomplete program, and the start of a run. -/
theorem startFollowsItsRule : Obligations.StartFollowsItsRule := by
  intro cfg s
  refine ⟨s.applyOp_of_not_idle startOp, fun _ herr => ?loadErr, fun hidle herr ⟨p, hp, hnone⟩ => ?unwritten,
    fun hidle herr hcomplete => ?complete⟩
  case loadErr => rw [CoreState.applyOp_startOp, s.start_of_loadErr herr]
  case unwritten => exact s.applyOp_startOp_of_unwritten hidle herr hp hnone
  case complete =>
    have hs := s.applyOp_startOp_of_complete hidle herr hcomplete
    exact ⟨hs, hs ▸ cycle_op_of_idle s startOp hidle⟩

/-! ### The first state of a run -/

/-- A host operation that takes the core from IDLE to RUNNING changes nothing but STATE. -/
theorem CoreState.applyOp_of_enters_running (s : CoreState cfg) (op : HostOp) (hidle : s.runState = .idle)
    (hrun : (s.applyOp op).runState = .running) : s.applyOp op = { s with runState := .running } := by
  rcases s.applyOp_cases op with hop | ⟨-, _, hop⟩ | ⟨-, _, hop⟩ | ⟨-, _, hop⟩ | ⟨-, _, hop⟩ |
    ⟨-, _, _, _, -, -, hop⟩ | ⟨-, _, -, hop⟩ | ⟨-, -, -, hop⟩
  on_goal 8 => exact hop
  all_goals simp [hop, hidle] at hrun

/-- A cycle that takes the core from IDLE to RUNNING changes nothing but STATE (70_reset_and_hazards R245). -/
theorem cycle_of_enters_running (inp : HostInput) (s t : CoreState cfg) (hidle : s.runState = .idle)
    (hcycle : cycle inp ⟨cfg, s⟩ = .next ⟨cfg, t⟩) (hrun : t.runState = .running) :
    t = { s with runState := .running } := by
  rcases cycle_cases inp s with hc | ⟨op, hc⟩ | hc
  · cases hcycle.symm.trans hc
    cases hrun
  · cases hcycle.symm.trans hc
    exact s.applyOp_of_enters_running op hidle hrun
  · cases hcycle.symm.trans (hc.trans (step_of_not_running s (by simp [hidle])))
    cases hidle.symm.trans hrun

/-- From reset every sequence of cycles ends in a state that meets the invariant. -/
theorem inv_of_cycles_reset (inputs : List HostInput) (s : CoreState cfg)
    (hcycles : cycles inputs (State.resetOf cfg) = .next ⟨cfg, s⟩) : s.Inv := by
  obtain ⟨t, hc, hinv⟩ := cycles_keep CoreState.Inv
    (fun s inp hs => (everyHostOperationKeepsTheInvariant cfg s hs).2 inp) inputs _ (reset_inv cfg)
  cases hcycles.symm.trans hc
  exact hinv

/-- Settles O54: the invariant holds in IDLE, where it says that the registers and ITER are 0, and the cycle changes
only STATE. -/
theorem runsBeginWithRegistersZero : Obligations.RunsBeginWithRegistersZero := by
  intro cfg inputs inp s t hcycles hidle hcycle hrun
  obtain ⟨hzero, hiter⟩ := (inv_of_cycles_reset inputs s hcycles).idleFresh hidle
  obtain rfl := cycle_of_enters_running inp s t hidle hcycle hrun
  exact ⟨hzero, hzero s.ipsel, hiter⟩

/-! ### The iteration cap -/

theorem CoreState.applyOps_cons (s : CoreState cfg) (op : HostOp) (ops : List HostOp) :
    s.applyOps (op :: ops) = (s.applyOp op).applyOps ops := rfl

theorem CoreState.applyOps_append (s : CoreState cfg) (ops ops' : List HostOp) :
    s.applyOps (ops ++ ops') = (s.applyOps ops).applyOps ops' := List.foldl_append

theorem setIterationCap_of_nonpos {n : Int} (h : n ≤ 0) : setIterationCap n = some [.csrWrite 3 0, .csrWrite 4 0] :=
  if_pos h

theorem setIterationCap_of_pos {n : Int} (hpos : 1 ≤ n) (hlt : n < 2 ^ CW) :
    setIterationCap n = some [.csrWrite 4 n.toNat, .csrWrite 3 1] := by
  rw [setIterationCap, if_neg (by omega), if_pos hlt]

theorem setIterationCap_of_ge {n : Int} (h : 2 ^ CW ≤ n) : setIterationCap n = none := by
  have hpow : (0 : Int) < 2 ^ CW := by positivity
  rw [setIterationCap, if_neg (by omega), if_neg (by omega)]

theorem CoreState.applyOp_capEn_toNat (s : CoreState cfg) (b : Bool) (hidle : s.runState = .idle) :
    s.applyOp (.csrWrite 3 b.toNat) = { s with capEn := b } := by
  rw [s.applyOp_capEn b.toNat hidle, ofNat_one_getLsbD_zero b.toNat b.toNat_lt]
  cases b <;> rfl

/-- The writes that turn the cap off. -/
theorem CoreState.applyOps_capOff (s : CoreState cfg) (hidle : s.runState = .idle) :
    s.applyOps [.csrWrite 3 0, .csrWrite 4 0] = { s with capEn := false, capN := 0 } := by
  have hen : s.applyOp (.csrWrite 3 0) = { s with capEn := false } := s.applyOp_capEn_toNat false hidle
  rw [CoreState.applyOps_cons, hen]
  exact CoreState.applyOp_capN { s with capEn := false } 0 hidle

/-- The writes that put the cap in force. -/
theorem CoreState.applyOps_capOn (s : CoreState cfg) (v : Nat) (hidle : s.runState = .idle) :
    s.applyOps [.csrWrite 4 v, .csrWrite 3 1] = { s with capEn := true, capN := BitVec.ofNat CW v } := by
  rw [CoreState.applyOps_cons, s.applyOp_capN v hidle]
  exact CoreState.applyOp_capEn_toNat { s with capN := BitVec.ofNat CW v } true hidle

/-- CAP.N holds every count that the host does not refuse (70_reset_and_hazards R244). -/
theorem toNat_bv_of_lt {w : Nat} {n : Int} (hpos : 0 ≤ n) (hlt : n < 2 ^ w) : ((bv w n).toNat : Int) = n := by
  rw [BitVec.toNat_ofInt, Int.toNat_of_nonneg (Int.emod_nonneg _ (by positivity))]
  exact Int.emod_eq_of_lt hpos (by exact_mod_cast hlt)

theorem CoreState.capSet_of_capN_pos {s : CoreState cfg} {n : Int} (hen : s.capEn = true)
    (hn : (s.capN.toNat : Int) = n) (hpos : 1 ≤ n) : s.CapSet :=
  ⟨hen, fun hzero => by simp [hzero] at hn; omega⟩

/-- Settles O55: the writes of each range of n, and CAP.N reads back as n. -/
theorem iterationCapOperation : Obligations.IterationCapOperation := by
  intro cfg s n hidle
  refine ⟨fun hn => ?off, fun hpos hmax => ?on, setIterationCap_of_ge⟩
  case off =>
    have hops := s.applyOps_capOff hidle
    exact ⟨_, setIterationCap_of_nonpos hn, hops, fun ⟨hen, _⟩ => by simp [hops] at hen⟩
  case on =>
    have hlt : n < 2 ^ CW := by omega
    have hops : s.applyOps [.csrWrite 4 n.toNat, .csrWrite 3 1] = { s with capEn := true, capN := bv CW n } := by
      rw [s.applyOps_capOn n.toNat hidle, ← BitVec.ofInt_natCast, Int.toNat_of_nonneg (by omega)]
    have hcap := toNat_bv_of_lt (by omega : 0 ≤ n) hlt
    refine ⟨_, setIterationCap_of_pos hpos hlt, hops, ?_⟩
    rw [hops]
    exact ⟨hcap, CoreState.capSet_of_capN_pos rfl hcap hpos⟩

/-- What the writes of a cap that the host does not refuse leave: the cap in force exactly for a positive n. -/
theorem CoreState.exists_applyOps_setIterationCap (s : CoreState cfg) (n : Int) (hidle : s.runState = .idle)
    (hn : n < 2 ^ CW) :
    ∃ ops en N, setIterationCap n = some ops ∧ s.applyOps ops = { s with capEn := en, capN := N } ∧
      ((s.applyOps ops).CapSet ↔ 1 ≤ n) ∧ (1 ≤ n → (N.toNat : Int) = n) := by
  obtain ⟨hoff, hon, -⟩ := iterationCapOperation cfg s n hidle
  by_cases hpos : 1 ≤ n
  · obtain ⟨ops, hset, hops, hcap, hcapSet⟩ := hon hpos (by omega)
    rw [hops] at hcap
    exact ⟨ops, _, _, hset, hops, iff_of_true hcapSet hpos, fun _ => hcap⟩
  · obtain ⟨ops, hset, hops, hcapSet⟩ := hoff (by omega)
    exact ⟨ops, _, _, hset, hops, iff_of_false hcapSet hpos, fun h => absurd h hpos⟩

/-! ### The load sequence and the boot -/

theorem CoreState.applyOp_ipsel_of_lt (s : CoreState cfg) (v : Nat) (hidle : s.runState = .idle) (hv : v < cfg.NREG) :
    s.applyOp (.csrWrite 1 v) = { s with ipsel := ⟨v, hv⟩ } := by
  rw [s.applyOp_ipsel v hidle, Nat.mod_eq_of_lt (hv.trans_le (NREG_le_two_pow_indexWidth cfg)),
    s.writeIpsel_of_lt v hv]

theorem CoreState.applyOp_plen_of_le (s : CoreState cfg) (v : Nat) (hidle : s.runState = .idle)
    (hv : v ≤ cfg.MAXPROG) :
    s.applyOp (.csrWrite 2 v) = { s with plen := ⟨v, Nat.lt_succ_iff.mpr hv⟩ } := by
  rw [s.applyOp_plen v hidle, Nat.mod_eq_of_lt (hv.trans_lt (MAXPROG_lt_two_pow_plenWidth cfg)),
    s.writePlen_of_le v hv]

/-- The load writes of a program that fits store exactly its words, into an empty IMEM (70_reset_and_hazards R243). -/
theorem CoreState.exists_applyOps_loadOps (s : CoreState cfg) (p : Program) (hidle : s.runState = .idle)
    (hempty : s.imem = []) (hip : p.ip < cfg.NREG) (hlen : p.code.length ≤ cfg.MAXPROG)
    (hwf : ∀ i ∈ p.code, i.wellFormed cfg = true) :
    ∃ m, s.applyOps (p.loadOps cfg) =
        { s with ipsel := ⟨p.ip, hip⟩, imem := m, plen := ⟨p.code.length, Nat.lt_succ_iff.mpr hlen⟩ } ∧
      ∀ k, Memory.read m k = (p.code[k]?).map (encode cfg) := by
  obtain ⟨m, hops, hread⟩ := applyOps_codeOps p.code 0 { s with ipsel := ⟨p.ip, hip⟩ } hidle
    (fun i hi => decodeOfEncodeIsTheInstruction cfg i (hwf i hi)) (by omega)
  refine ⟨m, ?writes, fun k => ?reads⟩
  case writes =>
    rw [Program.loadOps, CoreState.applyOps_cons, s.applyOp_ipsel_of_lt p.ip hidle hip, CoreState.applyOps_append, hops]
    exact CoreState.applyOp_plen_of_le { s with ipsel := ⟨p.ip, hip⟩, imem := m } p.code.length hidle hlen
  case reads =>
    rw [hread, if_neg (Nat.not_lt_zero k), Nat.sub_zero, hempty]
    cases p.code[k]? <;> rfl

/-- The boot is the load writes, the cap writes and START, in this order (70_reset_and_hazards R242). -/
theorem boot_eq_some (p : Program) {cap : Int} {ops : List HostOp} (hset : setIterationCap cap = some ops) :
    boot cfg p cap =
      some ((((CoreState.reset cfg).applyOps (p.loadOps cfg)).applyOps ops).applyOp startOp) := by
  simp only [boot, hset, CoreState.applyOps_append]
  rfl

/-- A program of which exactly the words are stored has every position below its length written. -/
theorem exists_read_of_lt_length {m : Memory (4 * cfg.W)} {code : List Instr}
    (hread : ∀ k, Memory.read m k = (code[k]?).map (encode cfg)) (k : Nat) (hk : k < code.length) :
    ∃ w, Memory.read m k = some w :=
  ⟨encode cfg code[k], by rw [hread, List.getElem?_eq_getElem hk, Option.map_some]⟩

/-- Settles O58: the load writes, the cap writes and START in turn, each changing only its own components of the reset
state. -/
theorem acceptedTextStartsRunning : Obligations.AcceptedTextStartsRunning := by
  intro cfg mk text p cap htext hcap
  obtain ⟨hip, hlen, hwf⟩ := acceptedTextIsWellFormed cfg mk text p htext
  obtain ⟨m, hload, hread⟩ := (CoreState.reset cfg).exists_applyOps_loadOps p rfl rfl hip hlen hwf
  obtain ⟨ops, en, N, hset, hops, hcapSet, hN⟩ :=
    CoreState.exists_applyOps_setIterationCap ((CoreState.reset cfg).applyOps (p.loadOps cfg)) cap
      (by rw [hload]; rfl) hcap
  rw [hops] at hcapSet
  rw [hload] at hops hcapSet
  have hstart := CoreState.applyOp_startOp_of_complete
    { CoreState.reset cfg with
      ipsel := ⟨p.ip, hip⟩, imem := m, plen := ⟨p.code.length, Nat.lt_succ_iff.mpr hlen⟩, capEn := en, capN := N }
    rfl rfl (exists_read_of_lt_length hread)
  have hboot := boot_eq_some (cfg := cfg) p hset
  rw [hload, hops, hstart] at hboot
  exact ⟨_, hboot, rfl, rfl, rfl, rfl, hread, hcapSet, hN, reset_getElem cfg, rfl⟩

end Sys2Proof.Machine
end
